-- ==== Sys2Proof/Word.lean ====
section
/-! DEFINITION. The bit-vector types of the model: `u8` and `u32` of 00_scope.md rule R11, and their finite sequences. -/

namespace Sys2Proof

/-- `u32`: an unsigned 32-bit word (R8, R11). Its `+`, `-`, `^^^`, `&&&`, `<<<`, `>>>` are the operators of R13. -/
abbrev Word := BitVec 32

/-- `u8`: an unsigned byte (R11). -/
abbrev Byte := BitVec 8

/-- `bytes`: a finite sequence of bytes, first byte first (R11). -/
abbrev Bytes := List Byte

/-- `words`: a finite sequence of words, indexed from 0 (R11). -/
abbrev Words := List Word

end Sys2Proof
end

