-- ==== Sys2Proof/Syntax.lean ====
section
/-! DEFINITION. What CORE is told: the commands (30_encoding.md rule R71, spec/opcode_table.json), the registers a host
access names (10_state.md rule R22), the host's bus operations (rules R75 to R77) and the turns of the agents (R19, R240). -/

namespace Sys2Proof

/-- The commands: one constructor for each row of spec/opcode_table.json. No command carries an operand (R74). -/
inductive Instr where
  /-- ENCRYPT, command word 0x00000001 (R145). -/
  | encrypt
  /-- DECRYPT, command word 0x00000002 (R163). -/
  | decrypt
  deriving DecidableEq, Repr

/-- What an aligned offset of the register block selects (R22). -/
inductive Reg where
  /-- CMD, offset 0x000 (R23). -/
  | cmd
  /-- STATUS, offset 0x004 (R24). -/
  | status
  /-- LEN, offset 0x008 (R25). -/
  | len
  /-- OUTLEN, offset 0x00C (R26). -/
  | outlen
  /-- KEY0 to KEY3, offsets 0x010 to 0x01C (R27). -/
  | key (j : Fin 4)
  /-- CAPACITY, offset 0x020 (R28). -/
  | capacity
  /-- An aligned offset of the reserved range 0x024 to 0x0FF (R30). -/
  | reserved
  /-- DATA[i], offset 0x100 + 4·i with i < MAX_WORDS (R29). -/
  | data (i : Nat)
  deriving DecidableEq, Repr

/-- What the block makes of a byte offset (R22, R30, R54). -/
inductive Target where
  /-- An aligned offset of the block. -/
  | reg (r : Reg)
  /-- An offset of the block that is no multiple of 4 (R54). -/
  | misaligned
  /-- An offset at or above 0x100 + 4·MAX_WORDS (R30). -/
  | outside
  deriving DecidableEq, Repr

/-- A raw bus access: any address, any width (R54 says which of them are legal). -/
structure Access where
  /-- The byte address on the host's bus. -/
  addr : Nat
  /-- The width of the access in bits. -/
  bits : Nat
  /-- The value written, or `none` for a read. -/
  value : Option Word
  deriving DecidableEq, Repr

/-- One operation of the host's program. The first three are the binary forms `W`, `R` and `P` of R77, with the offset
relative to BASE. -/
inductive HostOp where
  /-- `W offset value`: an aligned 32-bit write (R75, R77). -/
  | write (offset : Nat) (value : Word)
  /-- `R offset`: an aligned 32-bit read (R75, R77). -/
  | read (offset : Nat)
  /-- `P offset mask value`: reads of `offset` until `(read value) & mask = value` (R75, R77). -/
  | poll (offset : Nat) (mask value : Word)
  /-- `RESULT`: a read of OUTLEN, then as many reads of DATA as that length needs (R76). -/
  | result
  /-- A bus access by absolute address and with any width (R50, R53, R54). -/
  | access (a : Access)
  deriving DecidableEq, Repr

/-- Who moves in a step: one of the two agents of R19, or the external reset input (R240). -/
inductive Turn where
  /-- The host issues the next bus transaction of its program. -/
  | host
  /-- The core sequencer takes its completion step, if one is enabled (R34, R247). -/
  | core
  /-- The running command makes one mix evaluation of its working state (R31, R250); no host access sees it (R32). -/
  | mix
  /-- The reset input becomes asserted (R240). -/
  | assertReset
  /-- The reset input is released (R240). -/
  | releaseReset
  deriving DecidableEq, Repr

end Sys2Proof
end

