-- ==== Sys2Proof/Config.lean ====
section
/-! DEFINITION. What an instance of CORE fixes (the OPEN parameters of 00_scope.md rule R9) and the values the spec
leaves unspecified. Every `opaque` constant here has no body: no proof can see its value (notes/assumptions/1, 2, 3, 4). -/

namespace Sys2Proof

/-- The two OPEN parameters of one instance of CORE (R9, decision D2): constants of the instance, never written. -/
structure Params where
  /-- `MAX_WORDS`, the capacity of DATA in words, `2 ≤ MAX_WORDS ≤ 2^30`. -/
  maxWords : Nat
  /-- `BASE`, the bus address of offset 0, a multiple of 4. -/
  base : Nat
  deriving DecidableEq, Repr

/-- The platform's choice behind `MAX_WORDS`: how far it is above 2, up to 2^30 - 2; OPEN (R9), so a constant without a value. -/
opaque Config.maxWordsChoice : Fin 1073741823

/-- The platform's choice behind `BASE`; OPEN (R9), so a constant without a value. -/
opaque Config.baseChoice : Nat

/-- The parameters of the instance that `State.reset` describes: any pair that meets R9's constraints can be this one,
and no other can. -/
def Config.params : Params where
  maxWords := Config.maxWordsChoice.val + 2
  base := 4 * Config.baseChoice

/-- FREE VALUE (U1, U2, U3, U5): the byte that DATA holds at byte offset `offset` when nothing has been written there
since DATA last became unspecified; `epoch` numbers those occasions. -/
opaque Config.freeDataByte (epoch offset : Nat) : BitVec 8

/-- FREE VALUE (U4): the word that read number `count` of DATA while BUSY returns (R35: a fresh draw for each read). -/
opaque Config.freeBusyWord (count : Nat) : BitVec 32

/-- FREE VALUE: what OUTLEN holds when the byte length of a result does not fit in 32 bits, a case the spec does not
settle (notes/assumptions/4); `epoch` numbers the completion. -/
opaque Config.freeOutlen (epoch : Nat) : BitVec 32

end Sys2Proof
end

