-- ==== Sys2Proof/WellFormed.lean ====
section
/-! DEFINITION. Which terms of the syntax are well formed: the checks that 00_scope.md rule R9 and 20_memory.md rule R54
put on parameters and on host accesses. A command has no field, so every command is well formed (R74). -/

namespace Sys2Proof

/-- A command word carries no operand and no immediate (R74), so there is nothing to check in a command. -/
def Instr.wellFormed : Instr → Bool
  | .encrypt => true
  | .decrypt => true

/-- `2 ≤ MAX_WORDS ≤ 2^30`, and BASE is aligned to 4 (R9, D2). -/
def Params.wellFormed (c : Params) : Bool :=
  decide (2 ≤ c.maxWords) && decide (c.maxWords ≤ 2 ^ 30) && decide (c.base % 4 = 0)

/-- An offset that an aligned 32-bit access may use: a multiple of 4 inside the block (R50, R54). -/
def offsetWellFormed (c : Params) (offset : Nat) : Bool :=
  decide (offset % 4 = 0) && decide (offset < 4 * c.maxWords + 0x100)

/-- A legal raw access: 32 bits wide, at an aligned address of the block (R54). -/
def Access.wellFormed (c : Params) (a : Access) : Bool :=
  decide (a.bits = 32) && decide (c.base ≤ a.addr) && offsetWellFormed c (a.addr - c.base)

/-- A host operation whose every access R54 permits. -/
def HostOp.wellFormed (c : Params) : HostOp → Bool
  | .write offset _ => offsetWellFormed c offset
  | .read offset => offsetWellFormed c offset
  | .poll offset _ _ => offsetWellFormed c offset
  | .result => true
  | .access a => a.wellFormed c

end Sys2Proof
end

