-- ==== Sys2Proof/Decode.lean ====
section
/-! DEFINITION. Command words: decoding, total over all 2^32 of them (30_encoding.md rules R70 to R73), and the
encoder, from the same table. -/

namespace Sys2Proof

/-- Why a command word is no command (R73): each of these is `ILLEGAL` of R72. -/
inductive DecodeError where
  /-- RSVD, bits 31:4, is not 0. -/
  | reservedBitsSet
  /-- RSVD is 0 and OP is 0x0 or 0x3 to 0xF. -/
  | illegalOp
  /-- Fewer than the four bytes of a command word (R70: every command is 32 bits long). -/
  | truncated
  deriving DecidableEq, Repr

/-- The field OP, bits 3:0 (R70). -/
def opField (c : BitVec 32) : BitVec 4 := c.extractLsb' 0 4

/-- The field RSVD, bits 31:4 (R70). -/
def rsvdField (c : BitVec 32) : BitVec 28 := c.extractLsb' 4 28

/-- `decodeCommand` of R72: exact match on the two command words; every other word is `ILLEGAL`, for the reason R73
names. -/
def decodeCommand (c : BitVec 32) : Except DecodeError Instr :=
  if c = 0x00000001#32 then .ok .encrypt
  else if c = 0x00000002#32 then .ok .decrypt
  else if rsvdField c ≠ 0#28 then .error .reservedBitsSet
  else .error .illegalOp

/-- The command word of a command: OP as R71 assigns it, RSVD 0 (R70). -/
def encode : Instr → BitVec 32
  | .encrypt => 0#28 ++ 0x1#4
  | .decrypt => 0#28 ++ 0x2#4

/-- The command word as the four bytes of the little-endian host bus, lowest address first (R53). -/
def encodeBytes (i : Instr) : Bytes :=
  [(encode i).extractLsb' 0 8, (encode i).extractLsb' 8 8, (encode i).extractLsb' 16 8, (encode i).extractLsb' 24 8]

/-- A command read from bytes of the host bus, with the bytes left over (R53, R70). -/
def decodeBytes : Bytes → Except DecodeError (Instr × Bytes)
  | b0 :: b1 :: b2 :: b3 :: rest =>
    match decodeCommand (b3 ++ (b2 ++ (b1 ++ b0 : BitVec 16) : BitVec 24) : BitVec 32) with
    | .ok i => .ok (i, rest)
    | .error e => .error e
  | _ => .error .truncated

/-- The command word that `nbits` bits of the number `w` give, bit 0 the least significant; bits from `nbits` up are 0. -/
def tableWord (nbits w : Nat) : BitVec 32 := BitVec.ofNat 32 (w % 2 ^ nbits)

/-- The command that the decoder reads from an opcode-table word. -/
def decodeTableWord (nbits w : Nat) : Option Instr :=
  match decodeCommand (tableWord nbits w) with
  | .ok i => some i
  | .error _ => none

end Sys2Proof
end

