-- ==== Sys2Proof/Machine/State.lean ====
section
/-! DEFINITION. The state of the machine as plain data: every register of 10_state.md rules R22 to R30, the working
state of a running command (R31, R33), the reset input (R240), and the host agent with the order in which the agents
move (R19, R59). -/

namespace Sys2Proof.Machine

/-- Why a step stops with a fault. Both are the bus errors of R54, which treats them as host faults. SAFE: the model
stops where the bus reports an error and CORE is unchanged (R209). -/
inductive Fault where
  /-- Raised by a raw host access of the block that is not 32 bits wide (R54). Safe. -/
  | busWidth
  /-- Raised by a host access at an offset of the block that is no multiple of 4 (R54). Safe. -/
  | busMisaligned
  deriving DecidableEq, Repr

/-- Why a step has no meaning. SAFE: the model stops where the platform, not CORE, decides. -/
inductive Refusal where
  /-- Raised by an arm of `exec` for an instruction that has no meaning yet; no arm raises it. Safe. -/
  | notModelled (mnemonic : String)
  /-- Raised by a host access outside the register block: "what they do is the platform's business" (R30, X3). Safe. -/
  | outsideBlock
  /-- Raised by a completion that would apply `encode` with truncation to no words, which no path reaches (R107, N1).
  Safe. -/
  | encodeOfNothing
  deriving DecidableEq, Repr

/-- STATUS.ERR (R200). The reserved codes 4 to 15 are never produced. -/
inductive ErrCode where
  /-- Code 0: no error. -/
  | none
  /-- Code 1: MALFORMED (R201). -/
  | malformed
  /-- Code 2: ILLEGAL_CMD (R202). -/
  | illegalCmd
  /-- Code 3: CAPACITY (R203). -/
  | capacity
  deriving DecidableEq, Repr

/-- The key words `k[0..3]`, held in KEY0 to KEY3 (R27). -/
structure Key where
  /-- KEY0, `k[0]`. -/
  k0 : Word
  /-- KEY1, `k[1]`. -/
  k1 : Word
  /-- KEY2, `k[2]`. -/
  k2 : Word
  /-- KEY3, `k[3]`. -/
  k3 : Word
  deriving DecidableEq, Repr

/-- The working state of a running command: the word buffer and the scalars, "all 32 bits wide" (R31). The key words are
read from KEY0 to KEY3 and have no copy here. That `v` stands beside DATA is DESIGN CHOICE (notes/assumptions/8): R33 and
R34 keep DATA bytes [0, L) at the input until completion. -/
structure Work where
  /-- The working word buffer `v[0..n]`. -/
  v : Words
  /-- `n`, the index of the last word. -/
  n : Word
  /-- `q`, the round count. -/
  q : Word
  /-- `sum`, the running round sum. -/
  sum : Word
  /-- `y`, the neighbour above. -/
  y : Word
  /-- `z`, the neighbour below. -/
  z : Word
  /-- `e`, the round key selector. -/
  e : Word
  /-- `p`, the position of the next word to update. -/
  p : Word
  /-- The round counter: how many rounds are complete. -/
  round : Word
  deriving DecidableEq, Repr

/-- A pending operation: the command and `L = LEN` at acceptance (R33), with its working state (R31). -/
structure Pending where
  /-- The accepted command. -/
  cmd : Instr
  /-- `L`, the byte length of the input. -/
  len : Word
  /-- The working state so far. -/
  work : Work
  deriving DecidableEq, Repr

/-- The machine. -/
structure State where
  /-- MAX_WORDS and BASE of this instance (R9); CAPACITY reads MAX_WORDS (R28). No step writes it. -/
  params : Params
  /-- LEN (R25). -/
  len : Word
  /-- OUTLEN (R26). -/
  outlen : Word
  /-- KEY0 to KEY3 (R27). -/
  key : Key
  /-- STATUS.BUSY (R24). -/
  busy : Bool
  /-- STATUS.DONE (R24). -/
  done : Bool
  /-- STATUS.ERR (R24, R200). -/
  err : ErrCode
  /-- The message buffer DATA by byte offset (R29, R52): the bytes that hold a known value, offsets strictly rising. -/
  data : List Host.Cell
  /-- The model's own: how often DATA has become unspecified; it numbers the draws of U1, U2, U3 and U5. -/
  dataEpoch : Nat
  /-- The model's own: how many DATA words were read while BUSY; it numbers the draws of U4. -/
  busyReads : Nat
  /-- The pending operation and its working state; none unless a command is running (R33, R37). -/
  pending : Option Pending
  /-- The reset input: asserted or not (R240). -/
  inReset : Bool
  /-- The host agent: the bus operations it has still to issue, first one first (R19, R77). -/
  program : List HostOp
  /-- The host agent: the values its reads returned, the latest first (R75: `read REG -> name`). -/
  reads : List Word
  /-- The order in which the agents and the reset input move next (R19, R59, U6, U7). -/
  turns : List Turn
  deriving DecidableEq, Repr

/-- The machine right after reset (R37, R240, R242): registers 0, no command pending, DATA unspecified, reset released;
no host program and no turn has been given. -/
def State.reset : State where
  params := Config.params
  len := 0#32
  outlen := 0#32
  key := { k0 := 0#32, k1 := 0#32, k2 := 0#32, k3 := 0#32 }
  busy := false
  done := false
  err := .none
  data := []
  dataEpoch := 0
  busyReads := 0
  pending := none
  inReset := false
  program := []
  reads := []
  turns := []

end Sys2Proof.Machine
end

