-- ==== Sys2Proof/Machine/MixEngine.lean ====
section
/-! DEFINITION. MixEngine (42_mixengine.md): the mixing function, used unchanged by both directions (R125). -/

namespace Sys2Proof.Machine

/-- `k[i]` for a key index `i` in {0, 1, 2, 3}; R122 shows that no other index occurs (notes/assumptions/19). -/
def Key.word (k : Key) (i : Nat) : Word :=
  match i with
  | 0 => k.k0
  | 1 => k.k1
  | 2 => k.k2
  | _ => k.k3

/-- The key index `(position & 3) ^ e` (R122). -/
def MixEngine.keyIndex (position : Nat) (e : Word) : Nat := (position &&& 3) ^^^ e.toNat

/-- `mix(sum, y, z, position, e, k)` (R121). All shifts are logical (R123) and every sum is modulo 2^32 (R124). -/
def MixEngine.mix (sum y z : Word) (position : Nat) (e : Word) (k : Key) : Word :=
  let t1 := (z >>> 5) ^^^ (y <<< 2)
  let t2 := (y >>> 3) ^^^ (z <<< 4)
  let t3 := sum ^^^ y
  let t4 := k.word (MixEngine.keyIndex position e) ^^^ z
  (t1 + t2) ^^^ (t3 + t4)

end Sys2Proof.Machine
end

