-- ==== Sys2Proof/Machine/WordCodec.lean ====
section
/-! DEFINITION. WordCodec (41_wordcodec.md): byte-word conversion, the length sentinel and key normalisation. Every
function here is pure (R16). -/

namespace Sys2Proof.Machine

/-- How `encode` can fail. -/
inductive CodecError where
  /-- The source's MalformedCiphertext: the sentinel is out of range (R106, R201). -/
  | malformedCiphertext
  /-- `encode([], true)`, to which R107 lets a model give no meaning (N1). -/
  | noWords
  deriving DecidableEq, Repr

/-- `le32`: four bytes, in message order, as one little-endian word (R51, R100). -/
def WordCodec.le32 (b0 b1 b2 b3 : Byte) : Word :=
  b0.setWidth 32 ||| b1.setWidth 32 <<< 8 ||| b2.setWidth 32 <<< 16 ||| b3.setWidth 32 <<< 24

/-- Byte `j` of a word, `w[8j+7:8j]` (R12). -/
def WordCodec.byteOf (w : Word) (j : Nat) : Byte := w.extractLsb' (8 * j) 8

/-- `bytes32`: the four bytes of a word, in message order (R100). -/
def WordCodec.bytes32 (w : Word) : Bytes :=
  [WordCodec.byteOf w 0, WordCodec.byteOf w 1, WordCodec.byteOf w 2, WordCodec.byteOf w 3]

/-- The bytes padded "on the right with zero bytes up to the next multiple of 4" (R101). -/
def WordCodec.pad (b : Bytes) : Bytes := b ++ List.replicate ((4 - b.length % 4) % 4) 0#8

/-- Each 4-byte group as a little-endian word, preserving group order (R101). -/
def WordCodec.packGroups : Bytes → Words
  | b0 :: b1 :: b2 :: b3 :: rest => WordCodec.le32 b0 b1 b2 b3 :: WordCodec.packGroups rest
  | _ => []

/-- `decode(b, appendLength)` (R101, R102): padding, packing and, on request, the length sentinel. It is total (R103). -/
def WordCodec.decode (b : Bytes) (appendLength : Bool) : Words :=
  let ws := WordCodec.packGroups (WordCodec.pad b)
  if appendLength then ws ++ [BitVec.ofNat 32 b.length] else ws

/-- Every word packed by `bytes32`, in order (R105). -/
def WordCodec.unpack : Words → Bytes
  | [] => []
  | w :: ws => WordCodec.bytes32 w ++ WordCodec.unpack ws

/-- The sentinel check of R106, in ℤ (R14, D20): `n - 3 <= m <= n` with `n = 4 * len(ws) - 4`. -/
def WordCodec.sentinelInRange (words : Nat) (m : Word) : Bool :=
  let n : Int := 4 * (words : Int) - 4
  decide (n - 3 ≤ (m.toNat : Int)) && decide ((m.toNat : Int) ≤ n)

/-- `encode(ws, truncate)`: without truncation every word packed (R105); with it, the sentinel check and the first `m`
bytes (R106). -/
def WordCodec.encode (ws : Words) (truncate : Bool) : Except CodecError Bytes :=
  if truncate then
    match ws.getLast? with
    | none => .error .noWords
    | some m =>
      if WordCodec.sentinelInRange ws.length m then .ok ((WordCodec.unpack ws).take m.toNat)
      else .error .malformedCiphertext
  else .ok (WordCodec.unpack ws)

/-- `keyWords(key)` (R108): the key decoded without a sentinel, zero words added up to four, the first four kept. -/
def WordCodec.keyWords (key : Bytes) : Key :=
  let kw := WordCodec.decode key false
  { k0 := kw.getD 0 0#32, k1 := kw.getD 1 0#32, k2 := kw.getD 2 0#32, k3 := kw.getD 3 0#32 }

end Sys2Proof.Machine
end

