-- ==== Sys2Proof/Machine/CipherCore.lean ====
section
/-! DEFINITION. CipherCore (43_encrypt.md, 44_decrypt.md): the round schedule, the two round loops as pure functions on
words (R16), the two transforms on bytes, and the same loops one mix evaluation at a time over the working state of R31. -/

namespace Sys2Proof.Machine

/-- DELTA (R140). -/
def CipherCore.delta : Word := 0x9E3779B9#32

/-- The round count for a buffer of `n + 1` words, `6 + (52 div (n+1))` (R141). -/
def CipherCore.rounds (n : Nat) : Nat := 6 + 52 / (n + 1)

/-- The round key selector `(sum >> 2) & 3` (R142). -/
def CipherCore.selector (sum : Word) : Word := (sum >>> 2) &&& 3#32

/-- One update of an inner position `p` in encryption: the buffer and `z` after it (R143). -/
def CipherCore.encInner (k : Key) (sum e : Word) (p : Nat) (vz : Words × Word) : Words × Word :=
  let y := vz.1.getD (p + 1) 0#32
  let x := vz.1.getD p 0#32 + MixEngine.mix sum y vz.2 p e k
  (vz.1.set p x, x)

/-- One round of encryption with the round's `sum`: `p` from 0 to n-1, then the wraparound step (R143). -/
def CipherCore.encRound (k : Key) (n : Nat) (sum : Word) (vz : Words × Word) : Words × Word :=
  let e := CipherCore.selector sum
  let inner := (List.range n).foldl (fun a p => CipherCore.encInner k sum e p a) vz
  let y := inner.1.getD 0 0#32
  let x := inner.1.getD n 0#32 + MixEngine.mix sum y inner.2 n e k
  (inner.1.set n x, x)

/-- `repeat q times`, each round adding DELTA to `sum` first (R143). -/
def CipherCore.encRounds (k : Key) (n : Nat) : Nat → Word → Words × Word → Words × Word
  | 0, _, vz => vz
  | q + 1, sum, vz =>
    CipherCore.encRounds k n q (sum + CipherCore.delta) (CipherCore.encRound k n (sum + CipherCore.delta) vz)

/-- `encWords(v, k)`, the encryption round loop (R143), for two words or more (N2). -/
def CipherCore.encWords (v : Words) (k : Key) : Words :=
  let n := v.length - 1
  (CipherCore.encRounds k n (CipherCore.rounds n) 0#32 (v, v.getD n 0#32)).1

/-- One update of an inner position `p ≥ 1` in decryption: the buffer and `y` after it (R160). -/
def CipherCore.decInner (k : Key) (sum e : Word) (p : Nat) (vy : Words × Word) : Words × Word :=
  let z := vy.1.getD (p - 1) 0#32
  let x := vy.1.getD p 0#32 - MixEngine.mix sum vy.2 z p e k
  (vy.1.set p x, x)

/-- One iteration of decryption with its `sum`: `p` from n down to 1, then the wraparound step at 0 (R160). -/
def CipherCore.decRound (k : Key) (n : Nat) (sum : Word) (vy : Words × Word) : Words × Word :=
  let e := CipherCore.selector sum
  let inner := (List.range n).foldr (fun i a => CipherCore.decInner k sum e (i + 1) a) vy
  let z := inner.1.getD n 0#32
  let x := inner.1.getD 0 0#32 - MixEngine.mix sum inner.2 z 0 e k
  (inner.1.set 0 x, x)

/-- `while sum != 0` (R160), for at most `fuel` iterations; the answer's first part is the `sum` it ended with.
DEDUCED (R161, notes/assumptions/16): with `fuel` the round count, the bound never cuts the loop short. -/
def CipherCore.decLoop (k : Key) (n : Nat) : Nat → Word → Words × Word → Word × (Words × Word)
  | 0, sum, vy => (sum, vy)
  | fuel + 1, sum, vy =>
    if sum = 0#32 then (sum, vy)
    else CipherCore.decLoop k n fuel (sum - CipherCore.delta) (CipherCore.decRound k n sum vy)

/-- The sum decryption starts with, `q * DELTA` modulo 2^32 (R160, R161). -/
def CipherCore.decStartSum (n : Nat) : Word := BitVec.ofNat 32 (CipherCore.rounds n) * CipherCore.delta

/-- `decWords(v, k)`, the decryption round loop (R160). -/
def CipherCore.decWords (v : Words) (k : Key) : Words :=
  let n := v.length - 1
  (CipherCore.decLoop k n (CipherCore.rounds n) (CipherCore.decStartSum n) (v, v.getD 0 0#32)).2.1

/-- `encrypt(pt, k)` (R144): it has no error path. -/
def CipherCore.encrypt (pt : Bytes) (k : Key) : Bytes :=
  if pt.length = 0 then []
  else WordCodec.unpack (CipherCore.encWords (WordCodec.decode pt true) k)

/-- `decrypt(ct, k)` (R162). -/
def CipherCore.decrypt (ct : Bytes) (k : Key) : Except CodecError Bytes :=
  if ct.length = 0 then .ok []
  else if ct.length < 4 then .error .malformedCiphertext
  else WordCodec.encode (CipherCore.decWords (WordCodec.decode ct false) k) true

/-- `n` of R31 as a `u32`. A buffer of a command has at most MAX_WORDS ≤ 2^30 words (R9), so it is exact. -/
def CipherCore.lastIndex (v : Words) : Word := BitVec.ofNat 32 (v.length - 1)

/-- `q` of R31 as a `u32`; it is at most 58 (R141), so it is exact. -/
def CipherCore.roundCount (v : Words) : Word := BitVec.ofNat 32 (CipherCore.rounds (v.length - 1))

/-- The working state of an encryption of the words `v` before its first round (R31, R143). `y` and `e` are read only
after they are set, so their first value is no part of the spec (DESIGN CHOICE, notes/assumptions/8). -/
def CipherCore.encStart (v : Words) : Work where
  v := v
  n := CipherCore.lastIndex v
  q := CipherCore.roundCount v
  sum := 0#32
  y := 0#32
  z := v.getD (v.length - 1) 0#32
  e := 0#32
  p := 0#32
  round := 0#32

/-- One mix evaluation of encryption: the update of position `p`, in the dataflow order of R147. A round begins at
position 0, where `sum` and `e` are formed; position n is the wraparound step. Nothing changes once q rounds are done. -/
def CipherCore.encMix (k : Key) (w : Work) : Work :=
  if w.round < w.q then
    let p := w.p.toNat
    let sum := if w.p = 0#32 then w.sum + CipherCore.delta else w.sum
    let e := if w.p = 0#32 then CipherCore.selector sum else w.e
    let y := if w.p = w.n then w.v.getD 0 0#32 else w.v.getD (p + 1) 0#32
    let x := w.v.getD p 0#32 + MixEngine.mix sum y w.z p e k
    { w with
      v := w.v.set p x, sum := sum, y := y, z := x, e := e
      p := if w.p = w.n then 0#32 else w.p + 1#32
      round := if w.p = w.n then w.round + 1#32 else w.round }
  else w

/-- The working state of a decryption of the words `v` before its first iteration (R31, R160). `z` and `e` are read only
after they are set (DESIGN CHOICE, notes/assumptions/8). -/
def CipherCore.decStart (v : Words) : Work where
  v := v
  n := CipherCore.lastIndex v
  q := CipherCore.roundCount v
  sum := CipherCore.decStartSum (v.length - 1)
  y := v.getD 0 0#32
  z := 0#32
  e := 0#32
  p := CipherCore.lastIndex v
  round := 0#32

/-- One mix evaluation of decryption: the update of position `p`, in the dataflow order of R166. An iteration begins at
position n, where `e` is formed; position 0 is the wraparound step, after which DELTA is taken from `sum`. -/
def CipherCore.decMix (k : Key) (w : Work) : Work :=
  if w.round < w.q then
    let p := w.p.toNat
    let e := if w.p = w.n then CipherCore.selector w.sum else w.e
    let z := if w.p = 0#32 then w.v.getD w.n.toNat 0#32 else w.v.getD (p - 1) 0#32
    let x := w.v.getD p 0#32 - MixEngine.mix w.sum w.y z p e k
    { w with
      v := w.v.set p x, y := x, z := z, e := e
      sum := if w.p = 0#32 then w.sum - CipherCore.delta else w.sum
      p := if w.p = 0#32 then w.n else w.p - 1#32
      round := if w.p = 0#32 then w.round + 1#32 else w.round }
  else w

end Sys2Proof.Machine
end

