-- ==== Sys2Proof/Machine/Flags.lean ====
section
/-! DEFINITION. STATUS, the only flag state CORE has (10_state.md rule R24), and the error codes in it
(60_exceptions.md rule R200). -/

namespace Sys2Proof.Machine

/-- The code of an error in STATUS.ERR (R200). -/
def ErrCode.code : ErrCode → BitVec 4
  | .none => 0#4
  | .malformed => 1#4
  | .illegalCmd => 2#4
  | .capacity => 3#4

/-- STATUS from its fields: BUSY in bit 0, DONE in bit 1, bits 3:2 and 31:8 zero, ERR in bits 7:4 (R24). -/
def statusOf (busy done : Bool) (err : ErrCode) : Word :=
  (BitVec.ofBool busy).setWidth 32 ||| (BitVec.ofBool done).setWidth 32 <<< 1 ||| err.code.setWidth 32 <<< 4

/-- The word a read of STATUS returns (R24). -/
def State.statusWord (s : State) : Word := statusOf s.busy s.done s.err

end Sys2Proof.Machine
end

