-- ==== Sys2Proof/Machine/Ops.lean ====
section
/-! DEFINITION. The named operations over DATA (20_memory.md), the ends of a command (10_state.md rules R33 and R34),
of which `finishNow` is the one way an error is reported at acceptance (60_exceptions.md rule R205), and reset (R240). -/

namespace Sys2Proof.Machine

/-! ### The message buffer as a list of known bytes -/

/-- The canonical form: offsets strictly rising. An unlisted offset holds no known byte, and every listed one does, so
equal contents are equal lists (notes/assumptions/5). -/
def Memory.wf : List Host.Cell → Bool
  | [] => true
  | [_] => true
  | c :: d :: m => decide (c.1 < d.1) && Memory.wf (d :: m)

/-- The known byte at an offset, if there is one. -/
def Memory.lookup (m : List Host.Cell) (a : Nat) : Option Byte :=
  match m with
  | [] => none
  | c :: m => if c.1 = a then some c.2 else Memory.lookup m a

/-- Writing one byte: it replaces the entry of its offset or stands in its place in the order. -/
def Memory.write (m : List Host.Cell) (a : Nat) (b : Byte) : List Host.Cell :=
  match m with
  | [] => [(a, b)]
  | c :: m => if a < c.1 then (a, b) :: c :: m else if a = c.1 then (a, b) :: m else c :: Memory.write m a b

/-- Writing consecutive bytes from an offset on. -/
def Memory.writeBytes (m : List Host.Cell) (a : Nat) : Bytes → List Host.Cell
  | [] => m
  | b :: bs => Memory.writeBytes (Memory.write m a b) (a + 1) bs

/-! ### The DATA byte view -/

/-- `byteAt(a)` (R52). An offset that holds no known byte reads as the draw of the present epoch, the same one at every
read until it is written (R29, R34; U1, U2, U3). -/
def State.byteAt (s : State) (a : Nat) : Byte :=
  match Memory.lookup s.data a with
  | some b => b
  | none => Config.freeDataByte s.dataEpoch a

/-- `MemRead(a, n)` (R52). -/
def State.memRead (s : State) (a n : Nat) : Bytes := (List.range n).map fun j => s.byteAt (a + j)

/-- `MemWrite(a, len(b), b)` (R52): every other byte is kept. -/
def State.memWrite (s : State) (a : Nat) (b : Bytes) : State := { s with data := Memory.writeBytes s.data a b }

/-- DATA[i] as a word: byte j of it is the byte at view offset 4i + j (R52, R53). -/
def State.dataWord (s : State) (i : Nat) : Word :=
  WordCodec.le32 (s.byteAt (4 * i)) (s.byteAt (4 * i + 1)) (s.byteAt (4 * i + 2)) (s.byteAt (4 * i + 3))

/-- Storing a word in DATA[i] (R29, R36), by its four bytes (R52). -/
def State.writeDataWord (s : State) (i : Nat) (w : Word) : State := s.memWrite (4 * i) (WordCodec.bytes32 w)

/-- Every DATA byte becomes unspecified: a new draw for each (R34, R37). -/
def State.forgetData (s : State) : State := { s with data := [], dataEpoch := s.dataEpoch + 1 }

/-! ### The registers of one number each -/

/-- Storing a value in KEYj (R27). -/
def Key.write (k : Key) (j : Fin 4) (w : Word) : Key :=
  match j with
  | 0 => { k with k0 := w }
  | 1 => { k with k1 := w }
  | 2 => { k with k2 := w }
  | 3 => { k with k3 := w }

/-- Storing a value in LEN (R25). -/
def State.writeLen (s : State) (w : Word) : State := { s with len := w }

/-- Storing a value in KEYj (R27). -/
def State.writeKey (s : State) (j : Fin 4) (w : Word) : State := { s with key := s.key.write j w }

/-- A byte length as OUTLEN holds it. A length of 2^32 bytes, which only ENCRYPT with MAX_WORDS = 2^30 can give, has no
32-bit value, and the spec does not say what OUTLEN then reads: a free value (notes/assumptions/4). -/
def State.lengthWord (s : State) (n : Nat) : Word :=
  if n < 2 ^ 32 then BitVec.ofNat 32 n else Config.freeOutlen s.dataEpoch

/-! ### Acceptance -/

/-- A write of a command word is a command only while BUSY = 0 (R23) and reset is not asserted (R240); otherwise it is
ignored (R35). -/
def State.takesCommand (s : State) : Bool := !s.busy && !s.inReset

/-- The first line of acceptance: DONE, ERR and OUTLEN are cleared (R33). This is also how a reported error ends (R206). -/
def State.clearResult (s : State) : State := { s with done := false, err := .none, outlen := 0#32 }

/-- `finishNow(code)` (R33): the command ends at once with the code; DATA, LEN and KEY0 to KEY3 are unchanged. CORE has
no other error entry: it saves nothing and goes nowhere (R205). -/
def State.finishNow (code : ErrCode) (s : State) : State :=
  { s with busy := false, done := true, err := code, outlen := 0#32 }

/-- The successful empty result of an empty input: at once, DATA unchanged (R145, R163, R204). -/
def State.finishEmpty (s : State) : State :=
  { s with busy := false, done := true, err := .none, outlen := 0#32 }

/-- BUSY is set and the pending operation recorded, with `L = LEN` and its first working state (R33, R31). -/
def State.startCommand (cmd : Instr) (work : Work) (s : State) : State :=
  { s with busy := true, pending := some { cmd := cmd, len := s.len, work := work } }

/-- The acceptance step around a command's own accept step; a write that is no command changes nothing (R33, R35). -/
def State.acceptWith (accept : State → State) (s : State) : State :=
  if s.takesCommand then accept s.clearResult else s

/-- Acceptance of a command word that is ILLEGAL (R33, R202). -/
def acceptIllegal (s : State) : State := s.acceptWith (State.finishNow .illegalCmd)

/-! ### Completion -/

/-- Completion with result bytes `b`: they are DATA bytes [0, len(b)), every other DATA byte becomes unspecified, OUTLEN
holds their number, and the command is over (R34). -/
def State.publish (b : Bytes) (s : State) : State :=
  { s.forgetData.memWrite 0 b with
    outlen := s.lengthWord b.length, err := .none, busy := false, done := true, pending := none }

/-- Completion with the error MalformedCiphertext: every DATA byte becomes unspecified, OUTLEN is 0 (R34, R205). -/
def State.publishMalformed (s : State) : State :=
  { s.forgetData with outlen := 0#32, err := .malformed, busy := false, done := true, pending := none }

/-! ### Reset -/

/-- Every register takes its reset value; a running command is abandoned with no completion (R37, R240, R241). The
host's side is not CORE's and stays. -/
def State.clearAll (s : State) : State :=
  { s.forgetData with
    len := 0#32, outlen := 0#32, key := { k0 := 0#32, k1 := 0#32, k2 := 0#32, k3 := 0#32 }
    busy := false, done := false, err := .none, pending := none }

/-- The reset input becomes asserted (R240). -/
def State.assertReset (s : State) : State := { s.clearAll with inReset := true }

/-- The reset input is released; at its release the state is that of R37 again (R240, R242). A release of an input that
is not asserted is no event. -/
def State.releaseReset (s : State) : State := if s.inReset then { s.clearAll with inReset := false } else s

end Sys2Proof.Machine
end

