-- ==== Sys2Proof/Machine/Operands.lean ====
section
/-! DEFINITION. The implicit operands of the commands (30_encoding.md rule R74) and the length limits they are held
against (60_exceptions.md rule R203). -/

namespace Sys2Proof

/-- The greatest LEN that ENCRYPT accepts: the data words and the sentinel word must fit (R145, R203). -/
def Params.encryptLimit (c : Params) : Nat := 4 * (c.maxWords - 1)

/-- The greatest LEN that DECRYPT accepts (R163, R203). -/
def Params.decryptLimit (c : Params) : Nat := 4 * c.maxWords

end Sys2Proof

namespace Sys2Proof.Machine

/-- The input bytes of a command of byte length `len`: DATA bytes [0, L) (R74, R104). -/
def State.inputBytes (s : State) (len : Word) : Bytes := s.memRead 0 len.toNat

/-- The key words `k = [KEY0, KEY1, KEY2, KEY3]` (R74, R109). -/
def State.keyOperand (s : State) : Key := s.key

/-- The words ENCRYPT works on: its input bytes with the sentinel (R144). -/
def State.encryptWords (s : State) (len : Word) : Words := WordCodec.decode (s.inputBytes len) true

/-- The words DECRYPT works on: its input bytes without a sentinel (R162). -/
def State.decryptWords (s : State) (len : Word) : Words := WordCodec.decode (s.inputBytes len) false

/-- CAPACITY as a host reads it: MAX_WORDS (R28). -/
def State.capacityWord (s : State) : Word := BitVec.ofNat 32 s.params.maxWords

end Sys2Proof.Machine
end

