-- ==== Sys2Proof/Machine/Decrypt.lean ====
section
/-! DEFINITION. The DECRYPT command (44_decrypt.md rule R163): its accept step, its mix evaluations and its completion. -/

namespace Sys2Proof.Machine

/-- `acceptDecrypt(L)` (R163), in the order of checks of R204. -/
def acceptDecrypt (s : State) : State :=
  if s.params.decryptLimit < s.len.toNat then s.finishNow .capacity
  else if s.len = 0#32 then s.finishEmpty
  else if s.len.toNat < 4 then s.finishNow .malformed
  else s.startCommand .decrypt (CipherCore.decStart (s.decryptWords s.len))

/-- DECRYPT written to CMD: acceptance (R33, R163). CAPACITY and a too short input are reported in STATUS. -/
def execDecrypt (s : State) : Host.Outcome State Fault Refusal := .next (s.acceptWith acceptDecrypt)

/-- Completion of a pending DECRYPT (R34, R163): the plaintext is published, or MALFORMED is reported. -/
def completeDecrypt (p : Pending) (s : State) : Host.Outcome State Fault Refusal :=
  match CipherCore.decrypt (s.inputBytes p.len) s.keyOperand with
  | .ok b => .next (s.publish b)
  | .error .malformedCiphertext => .next s.publishMalformed
  | .error .noWords => .refused .encodeOfNothing

/-- One mix evaluation of a pending DECRYPT (R31, R166). -/
def mixDecrypt (p : Pending) (s : State) : State :=
  { s with pending := some { p with work := CipherCore.decMix s.keyOperand p.work } }

end Sys2Proof.Machine
end

