-- ==== Sys2Proof/Machine/Encrypt.lean ====
section
/-! DEFINITION. The ENCRYPT command (43_encrypt.md rule R145): its accept step, its mix evaluations and its completion. -/

namespace Sys2Proof.Machine

/-- `acceptEncrypt(L)` (R145), in the order of checks of R204. -/
def acceptEncrypt (s : State) : State :=
  if s.params.encryptLimit < s.len.toNat then s.finishNow .capacity
  else if s.len = 0#32 then s.finishEmpty
  else s.startCommand .encrypt (CipherCore.encStart (s.encryptWords s.len))

/-- ENCRYPT written to CMD: acceptance (R33, R145). It never fails but for CAPACITY, which STATUS reports. -/
def execEncrypt (s : State) : Host.Outcome State Fault Refusal := .next (s.acceptWith acceptEncrypt)

/-- Completion of a pending ENCRYPT (R34, R145): the ciphertext is published. ENCRYPT never raises MALFORMED. -/
def completeEncrypt (p : Pending) (s : State) : Host.Outcome State Fault Refusal :=
  .next (s.publish (CipherCore.encrypt (s.inputBytes p.len) s.keyOperand))

/-- One mix evaluation of a pending ENCRYPT (R31, R147). -/
def mixEncrypt (p : Pending) (s : State) : State :=
  { s with pending := some { p with work := CipherCore.encMix s.keyOperand p.work } }

end Sys2Proof.Machine
end

