-- ==== Sys2Proof/Machine/Bus.lean ====
section
/-! DEFINITION. Host accesses (10_state.md rules R22, R35, R36; 20_memory.md rules R53 to R55): decoding an offset,
reading and writing a register, and the host's operations as bus transactions (30_encoding.md rules R75 to R77). -/

namespace Sys2Proof

/-- The byte offset of a register; of the reserved range, its first (R22). -/
def Reg.offset : Reg → Nat
  | .cmd => 0x000
  | .status => 0x004
  | .len => 0x008
  | .outlen => 0x00C
  | .key j => 0x010 + 4 * j.val
  | .capacity => 0x020
  | .reserved => 0x024
  | .data i => 0x100 + 4 * i

end Sys2Proof

namespace Sys2Proof.Machine

/-- What a byte offset of the block selects (R22, R30, R54). An offset past the block is not CORE's, aligned or not
(DEDUCED, notes/assumptions/11). -/
def decodeOffset (c : Params) (offset : Nat) : Target :=
  if offset < 0x100 then
    if offset % 4 ≠ 0 then .misaligned
    else if offset = 0x000 then .reg .cmd
    else if offset = 0x004 then .reg .status
    else if offset = 0x008 then .reg .len
    else if offset = 0x00C then .reg .outlen
    else if offset = 0x010 then .reg (.key 0)
    else if offset = 0x014 then .reg (.key 1)
    else if offset = 0x018 then .reg (.key 2)
    else if offset = 0x01C then .reg (.key 3)
    else if offset = 0x020 then .reg .capacity
    else .reg .reserved
  else if 4 * c.maxWords + 0x100 ≤ offset then .outside
  else if offset % 4 ≠ 0 then .misaligned
  else .reg (.data ((offset - 0x100) / 4))

/-- The value a read of a register returns while reset is not asserted (R36); while BUSY it is R35's: OUTLEN reads 0 and
DATA a fresh draw (U4). -/
def State.regValue (s : State) : Reg → Word
  | .cmd => 0#32
  | .status => s.statusWord
  | .len => s.len
  | .outlen => if s.busy then 0#32 else s.outlen
  | .key j => s.key.word j.val
  | .capacity => s.capacityWord
  | .reserved => 0#32
  | .data i => if s.busy then Config.freeBusyWord s.busyReads else s.dataWord i

/-- The value a read returns while reset is asserted: 0, except CAPACITY (R240). -/
def State.regValueInReset (s : State) : Reg → Word
  | .capacity => s.capacityWord
  | _ => 0#32

/-- Whether a read of a register uses up a draw: a DATA word read while BUSY (R35, U4). -/
def State.drawsOnRead (s : State) : Reg → Bool
  | .data _ => s.busy && !s.inReset
  | _ => false

/-- A host read: the value. -/
def State.readValue (s : State) (r : Reg) : Word := if s.inReset then s.regValueInReset r else s.regValue r

/-- A host read: the state after it. No register changes (R55); only the model's count of draws goes on. -/
def State.afterRead (s : State) (r : Reg) : State :=
  { s with busyReads := if s.drawsOnRead r then s.busyReads + 1 else s.busyReads }

/-- A value written to CMD: the command it encodes, or an illegal one (R33, R72, R202). -/
def writeCommand (c : Word) (s : State) : Host.Outcome State Fault Refusal :=
  match decodeCommand c with
  | .ok i => exec i s
  | .error _ => .next (acceptIllegal s)

/-- A host write of a register (R36). While BUSY, and while reset is asserted, it is ignored (R35, R240); the read-only
registers and the reserved offsets ignore it always (R24, R26, R28, R30). -/
def writeReg (r : Reg) (w : Word) (s : State) : Host.Outcome State Fault Refusal :=
  if s.busy || s.inReset then .next s
  else
    match r with
    | .cmd => writeCommand w s
    | .status => .next s
    | .len => .next (s.writeLen w)
    | .outlen => .next s
    | .key j => .next (s.writeKey j w)
    | .capacity => .next s
    | .reserved => .next s
    | .data i => .next (s.writeDataWord i w)

/-- A 32-bit write transaction at an offset (R77). -/
def busWrite (offset : Nat) (w : Word) (s : State) : Host.Outcome State Fault Refusal :=
  match decodeOffset s.params offset with
  | .reg r => writeReg r w s
  | .misaligned => .fault .busMisaligned
  | .outside => .refused .outsideBlock

/-- The host takes note of the value a read returned (R75). -/
def State.noteRead (s : State) (w : Word) : State := { s with reads := w :: s.reads }

/-- A 32-bit read transaction at an offset (R77), and what the host does with the value. -/
def busRead (offset : Nat) (use : Word → State → State) (s : State) : Host.Outcome State Fault Refusal :=
  match decodeOffset s.params offset with
  | .reg r => .next (use (s.readValue r) ((s.afterRead r).noteRead (s.readValue r)))
  | .misaligned => .fault .busMisaligned
  | .outside => .refused .outsideBlock

/-- A raw access by address (R53, R54): outside the block it is the platform's business (R30); in it, it must be 32 bits
wide and aligned. -/
def busAccess (a : Access) (s : State) : Host.Outcome State Fault Refusal :=
  if a.addr < s.params.base then .refused .outsideBlock
  else if 4 * s.params.maxWords + 0x100 ≤ a.addr - s.params.base then .refused .outsideBlock
  else if a.bits ≠ 32 then .fault .busWidth
  else
    match a.value with
    | some w => busWrite (a.addr - s.params.base) w s
    | none => busRead (a.addr - s.params.base) (fun _ t => t) s

/-- More operations for the host to issue before the rest of its program. -/
def State.issueFirst (s : State) (ops : List HostOp) : State := { s with program := ops ++ s.program }

/-- The reads of DATA that `RESULT` makes for an OUTLEN of `m`: DATA[i] for i from 0 to ceil(m/4) - 1 (R76). -/
def resultReads (m : Word) : List HostOp :=
  (List.range ((m.toNat + 3) / 4)).map fun i => .read (Reg.offset (.data i))

/-- One bus transaction of a host operation. A `P` whose value does not match yet is issued again at the host's next turn
(R75); `RESULT` reads OUTLEN and then issues the reads of DATA it needs (R76). -/
def runHostOp (op : HostOp) (s : State) : Host.Outcome State Fault Refusal :=
  match op with
  | .write offset w => busWrite offset w s
  | .read offset => busRead offset (fun _ t => t) s
  | .poll offset mask w =>
    busRead offset (fun x t => if x &&& mask = w then t else t.issueFirst [.poll offset mask w]) s
  | .result => busRead (Reg.offset .outlen) (fun m t => t.issueFirst (resultReads m)) s
  | .access a => busAccess a s

/-- The host's turn: it issues the first operation of its program, if it has one (R59: in program order). -/
def hostTurn (s : State) : Host.Outcome State Fault Refusal :=
  match s.program with
  | [] => .next s
  | op :: ops => runHostOp op { s with program := ops }

end Sys2Proof.Machine
end

