-- ==== Sys2Proof/Machine/Sequencer.lean ====
section
/-! DEFINITION. The core sequencer (00_scope.md rule R19): the completion step (10_state.md rule R34), the progress of
the working state before it (R31), and the order in which the agents move (20_memory.md rule R59, R247). -/

namespace Sys2Proof.Machine

/-- The completion of a pending operation, by its command (R34). -/
def completePending (p : Pending) (s : State) : Host.Outcome State Fault Refusal :=
  match p.cmd with
  | .encrypt => completeEncrypt p s
  | .decrypt => completeDecrypt p s

/-- The core sequencer's turn: completion, enabled whenever BUSY = 1 (R34, R247); otherwise it has no step. -/
def coreTurn (s : State) : Host.Outcome State Fault Refusal :=
  if s.busy then
    match s.pending with
    | some p => completePending p s
    | none => .next s
  else .next s

/-- One mix evaluation of a pending operation, by its command (R31). -/
def mixPending (p : Pending) (s : State) : State :=
  match p.cmd with
  | .encrypt => mixEncrypt p s
  | .decrypt => mixDecrypt p s

/-- The working state of a running command goes on by one mix evaluation (R31, R250). DESIGN CHOICE, safe: a step of the
model's own, which changes nothing a host access can see (R32, notes/assumptions/8). -/
def mixTurn (s : State) : State :=
  if s.busy then
    match s.pending with
    | some p => mixPending p s
    | none => s
  else s

/-- One turn. -/
def takeTurn (t : Turn) (s : State) : Host.Outcome State Fault Refusal :=
  match t with
  | .host => hostTurn s
  | .core => coreTurn s
  | .mix => .next (mixTurn s)
  | .assertReset => .next s.assertReset
  | .releaseReset => .next s.releaseReset

/-- Who moves when no order has been given: the core sequencer while a completion is enabled, so that an enabled
completion is eventually taken (R247), otherwise the host (DESIGN CHOICE, notes/assumptions/7). -/
def State.defaultTurn (s : State) : Turn := if s.busy then .core else .host

/-- One step of the machine: the next turn is taken, or, when none is given, the default one. -/
def nextTurn (s : State) : Host.Outcome State Fault Refusal :=
  match s.turns with
  | [] => takeTurn s.defaultTurn s
  | t :: ts => takeTurn t { s with turns := ts }

/-- A command word given to CORE as its next command: the host writes it to CMD at its next turn, which is the next step
(R23, R75). -/
def State.giveCommand (s : State) (c : Word) : State :=
  { s with turns := .host :: s.turns, program := .write (Reg.offset .cmd) c :: s.program }

end Sys2Proof.Machine
end

