-- ==== Sys2Proof/Machine/Step.lean ====
section
/-! DEFINITION. The step of the machine, and an instruction placed as its next one. -/

namespace Sys2Proof.Machine

/-- One step: the turn of one agent (R19, R59). -/
def step (s : State) : Host.Outcome State Fault Refusal := nextTurn s

/-- The state whose very next step writes the command word to CMD (notes/assumptions/6: CORE fetches nothing, R21). -/
def State.withFetchWord (s : State) (nbits w : Nat) : State := s.giveCommand (tableWord nbits w)

end Sys2Proof.Machine
end

