-- ==== Sys2Proof/Safety.lean ====
section
/-! DEFINITION. The terms that statements about whole steps use: the invariant every step keeps, the agreement of the
working state with the command that runs, and steps that end in no fault and no refusal. -/

namespace Sys2Proof.Machine

/-- The length a pending operation may have, by the acceptance checks (R145, R163). -/
def Pending.fits (c : Params) (p : Pending) : Prop :=
  match p.cmd with
  | .encrypt => 1 ≤ p.len.toNat ∧ p.len.toNat ≤ c.encryptLimit
  | .decrypt => 4 ≤ p.len.toNat ∧ p.len.toNat ≤ c.decryptLimit

/-- What holds of CORE after reset and is kept by every step. -/
structure State.Inv (s : State) : Prop where
  /-- R9's constraints on MAX_WORDS and BASE. -/
  params : s.params.wellFormed = true
  /-- DATA is in its canonical form. -/
  memory : Memory.wf s.data = true
  /-- DATA holds nothing past its last word (R52). -/
  inBuffer : ∀ c ∈ s.data, c.1 < 4 * s.params.maxWords
  /-- BUSY and DONE are never 1 at the same time (R24). -/
  notBusyAndDone : ¬ (s.busy = true ∧ s.done = true)
  /-- ERR is nonzero only while DONE = 1 (R24). -/
  errOnlyWhenDone : s.err ≠ .none → s.done = true
  /-- On any error OUTLEN holds 0 (R26). -/
  errOutlen : s.err ≠ .none → s.outlen = 0#32
  /-- OUTLEN is 0 until a command has finished (R26, R37). -/
  outlenUntilDone : s.done = false → s.outlen = 0#32
  /-- OUTLEN never exceeds the bytes DATA has (R26, R34). -/
  outlenInBuffer : s.outlen.toNat ≤ 4 * s.params.maxWords
  /-- BUSY = 1 exactly while an operation is pending (R24, R33). -/
  busyIffPending : s.busy = s.pending.isSome
  /-- A pending operation has the length in LEN (R33, R35), within its command's limits. -/
  pendingFits : ∀ p, s.pending = some p → p.len = s.len ∧ p.fits s.params
  /-- While reset is asserted every register holds its reset value (R240). -/
  heldInReset : s.inReset = true →
    s.busy = false ∧ s.done = false ∧ s.len = 0#32 ∧ s.key = { k0 := 0#32, k1 := 0#32, k2 := 0#32, k3 := 0#32 } ∧ s.data = []

/-- The first working state of a pending operation, from the registers that hold its inputs (R31). -/
def State.firstWork (s : State) (p : Pending) : Work :=
  match p.cmd with
  | .encrypt => CipherCore.encStart (s.encryptWords p.len)
  | .decrypt => CipherCore.decStart (s.decryptWords p.len)

/-- One mix evaluation of a command's working state (R147, R166). -/
def mixOnce (i : Instr) (k : Key) : Work → Work :=
  match i with
  | .encrypt => CipherCore.encMix k
  | .decrypt => CipherCore.decMix k

/-- Some number of mix evaluations of a working state. -/
def mixTimes (i : Instr) (k : Key) : Nat → Work → Work
  | 0, w => w
  | j + 1, w => mixTimes i k j (mixOnce i k w)

/-- The working state of the pending operation, if there is one, is what some number of mix evaluations make of its
first one: the key and the input bytes have not changed since acceptance (R33, R35). -/
def State.WorkAgrees (s : State) : Prop :=
  ∀ p, s.pending = some p → ∃ j, p.work = mixTimes p.cmd s.keyOperand j (s.firstWork p)

/-- A step, or a command, that answers a next state. -/
def Completes (o : Host.Outcome State Fault Refusal) : Prop := ∃ t, o = .next t

/-- CORE is idle: it takes the next command (R23, R242). -/
def State.idle (s : State) : Prop := s.busy = false ∧ s.inReset = false

/-- Two states that differ at most in DATA, in the result registers and STATUS, in the pending operation and in the
model's own counters: what every command leaves unchanged (R25, R27, R33, R34). -/
def State.sameInputs (s t : State) : Prop :=
  t.params = s.params ∧ t.len = s.len ∧ t.key = s.key ∧ t.inReset = s.inReset ∧
    t.program = s.program ∧ t.reads = s.reads ∧ t.turns = s.turns ∧ t.busyReads = s.busyReads

end Sys2Proof.Machine
end

