-- ==== Sys2Proof/Certificates/Slice0/Obligations.lean ====
section
/-! DEFINITION. The statements for the provers, in the order of the spec's files. Where a statement rests on a choice of
the model, its docstring names the log entry. -/

open Sys2Proof Sys2Proof.Machine

/-! ### Command words (30_encoding.md) -/

/-- R72: decoding is by exact match on the two command words, and every other word is illegal. -/
def Obligations.DecodeIsExactMatch : Prop :=
  ∀ c : Word,
    (decodeCommand c = .ok .encrypt ↔ c = 0x00000001#32) ∧ (decodeCommand c = .ok .decrypt ↔ c = 0x00000002#32) ∧
      (c ≠ 0x00000001#32 → c ≠ 0x00000002#32 → ∃ e, decodeCommand c = .error e)

/-- R70, R71: decoding an encoded command gives it back, from the word, from its bytes on the bus (R53) and from its row
of the opcode table. -/
def Obligations.DecodeOfEncode : Prop :=
  ∀ (i : Instr) (rest : Bytes),
    decodeCommand (encode i) = .ok i ∧ decodeBytes (encodeBytes i ++ rest) = .ok (i, rest) ∧
      decodeTableWord 32 (encode i).toNat = some i

/-- The two command words of R71 and some of the illegal ones of R73, written out. The two names of
reasons are the model's choice (notes/assumptions/15). -/
def Obligations.WrittenOutWordsDecode : Prop :=
  decodeCommand 0b00000000000000000000000000000001#32 = .ok .encrypt ∧
    decodeCommand 0b00000000000000000000000000000010#32 = .ok .decrypt ∧
    decodeCommand 0x00000000#32 = .error .illegalOp ∧ decodeCommand 0x0000000F#32 = .error .illegalOp ∧
    decodeCommand 0x00000011#32 = .error .reservedBitsSet ∧ decodeCommand 0x80000001#32 = .error .reservedBitsSet

/-- A host turn that writes a command word to CMD is `exec` of the command it decodes to, at the state in which that
write and that turn are used up. With no turn given, the host moves unless a command runs (notes/assumptions/7). -/
def Obligations.StepRunsTheDecodedCommand : Prop :=
  ∀ (s : State) (c : Word) (i : Instr) (ops : List HostOp),
    s.program = .write 0x000 c :: ops → decodeCommand c = .ok i →
      (∀ ts, s.turns = .host :: ts → step s = exec i { s with turns := ts, program := ops }) ∧
        (s.turns = [] → s.busy = false → step s = exec i { s with program := ops })

/-- A command word placed by `withFetchWord` is what the very next step runs (the model's choice of how a command
comes to CORE, notes/assumptions/6). -/
def Obligations.PlacedWordRunsNext : Prop :=
  ∀ (s : State) (nbits w : Nat) (i : Instr),
    decodeTableWord nbits w = some i → step (s.withFetchWord nbits w) = exec i s

/-! ### WordCodec (41_wordcodec.md) -/

/-- R100: a word is its four bytes shifted to their places, its bytes are its four slices, and packing and unpacking are
inverse. -/
def Obligations.PackingOneWordIsInvertible : Prop :=
  (∀ b0 b1 b2 b3 : Byte,
    WordCodec.le32 b0 b1 b2 b3 =
      b0.setWidth 32 ||| b1.setWidth 32 <<< 8 ||| b2.setWidth 32 <<< 16 ||| b3.setWidth 32 <<< 24) ∧
    (∀ w : Word,
      WordCodec.bytes32 w = [w.extractLsb' 0 8, w.extractLsb' 8 8, w.extractLsb' 16 8, w.extractLsb' 24 8]) ∧
    (∀ b0 b1 b2 b3 : Byte, WordCodec.bytes32 (WordCodec.le32 b0 b1 b2 b3) = [b0, b1, b2, b3]) ∧
    (∀ w : Word,
      WordCodec.le32 (WordCodec.byteOf w 0) (WordCodec.byteOf w 1) (WordCodec.byteOf w 2) (WordCodec.byteOf w 3) = w) ∧
    WordCodec.le32 0x61#8 0x62#8 0x63#8 0x64#8 = 0x64636261#32

/-- R101, R102: the words of a byte string hold its bytes in order and zeros after them; there are ceil(len/4) of them,
and the sentinel is the byte length. -/
def Obligations.DecodePadsAndPacks : Prop :=
  ∀ b : Bytes,
    (WordCodec.decode b false).length = (b.length + 3) / 4 ∧
      (∀ i j, i < (b.length + 3) / 4 → j < 4 →
        WordCodec.byteOf ((WordCodec.decode b false).getD i 0#32) j = b.getD (4 * i + j) 0#8) ∧
      WordCodec.decode b true = WordCodec.decode b false ++ [BitVec.ofNat 32 b.length]

/-- R105: without truncation, byte 4i + j of the result is byte j of word i. -/
def Obligations.EncodeUnpacksEveryWord : Prop :=
  ∀ ws : Words, ∃ b, WordCodec.encode ws false = .ok b ∧ b.length = 4 * ws.length ∧
    ∀ i j, i < ws.length → j < 4 → b.getD (4 * i + j) 0#8 = WordCodec.byteOf (ws.getD i 0#32) j

/-- R106: the sentinel is accepted exactly in [n - 3, n], compared in ℤ, and then gives the length of the result; one
word is accepted only when it is 0, two words only with a sentinel of 1 to 4. -/
def Obligations.SentinelDecidesTruncation : Prop :=
  ∀ (ws : Words) (m : Word),
    (4 * (ws.length : Int) - 3 ≤ (m.toNat : Int) ∧ (m.toNat : Int) ≤ 4 * (ws.length : Int) →
      ∃ b, WordCodec.encode (ws ++ [m]) true = .ok b ∧ b.length = m.toNat ∧
        b = (WordCodec.unpack ws).take m.toNat) ∧
    (¬ (4 * (ws.length : Int) - 3 ≤ (m.toNat : Int) ∧ (m.toNat : Int) ≤ 4 * (ws.length : Int)) →
      WordCodec.encode (ws ++ [m]) true = .error .malformedCiphertext) ∧
    (ws.length = 0 → (WordCodec.encode (ws ++ [m]) true = .ok [] ↔ m = 0#32)) ∧
    (ws.length = 1 → ((∃ b, WordCodec.encode (ws ++ [m]) true = .ok b) ↔ 1 ≤ m.toNat ∧ m.toNat ≤ 4))

/-- R108: the key words are the first 16 key bytes, zero-padded; longer key material is ignored. -/
def Obligations.KeyWordsAreTheFirstSixteenBytes : Prop :=
  ∀ key : Bytes,
    (∀ i j, i < 4 → j < 4 → WordCodec.byteOf ((WordCodec.keyWords key).word i) j = key.getD (4 * i + j) 0#8) ∧
      (∀ more : Bytes, key.length = 16 → WordCodec.keyWords (key ++ more) = WordCodec.keyWords key)

/-! ### MixEngine (42_mixengine.md) -/

/-- R122: the key index is always in range; positions p and p + 4 use the same key word; positions 0 to 3 use k[e],
k[1^e], k[2^e] and k[3^e]. -/
def Obligations.KeyIndexInRange : Prop :=
  ∀ (p : Nat) (e : Word), e.toNat < 4 →
    MixEngine.keyIndex p e < 4 ∧ MixEngine.keyIndex (p + 4) e = MixEngine.keyIndex p e ∧
      (p < 4 → MixEngine.keyIndex p e = p ^^^ e.toNat)

/-- R123: mix computed on naturals of any width, keeping the bits that left shifts move above bit 31, and reduced modulo
2^32 at the end gives the same word. -/
def Obligations.WideMixReducesToMix : Prop :=
  ∀ (sum y z : Word) (p : Nat) (e : Word) (k : Key),
    (MixEngine.mix sum y z p e k).toNat =
      ((((z.toNat >>> 5) ^^^ (y.toNat <<< 2)) + ((y.toNat >>> 3) ^^^ (z.toNat <<< 4))) ^^^
        ((sum.toNat ^^^ y.toNat) + ((k.word (MixEngine.keyIndex p e)).toNat ^^^ z.toNat))) % 2 ^ 32

/-! ### CipherCore (43_encrypt.md, 44_decrypt.md) -/

/-- R141: the round count is floor(6 + 52/(n+1)) exactly, lies in 6 to 58, and has the values of the rule's table. -/
def Obligations.RoundCount : Prop :=
  ∀ n : Nat,
    (CipherCore.rounds n : Int) = ⌊(6 + 52 / ((n : ℚ) + 1) : ℚ)⌋ ∧ 6 ≤ CipherCore.rounds n ∧ CipherCore.rounds n ≤ 58 ∧
      (n + 1 = 1 → CipherCore.rounds n = 58) ∧ (n + 1 = 2 → CipherCore.rounds n = 32) ∧
      (n + 1 = 3 → CipherCore.rounds n = 23) ∧ (n + 1 = 4 → CipherCore.rounds n = 19) ∧
      (n + 1 = 5 → CipherCore.rounds n = 16) ∧ (n + 1 = 6 → CipherCore.rounds n = 14) ∧
      (n + 1 = 7 → CipherCore.rounds n = 13) ∧ (n + 1 = 8 → CipherCore.rounds n = 12) ∧
      (9 ≤ n + 1 → n + 1 ≤ 10 → CipherCore.rounds n = 11) ∧ (11 ≤ n + 1 → n + 1 ≤ 13 → CipherCore.rounds n = 10) ∧
      (14 ≤ n + 1 → n + 1 ≤ 17 → CipherCore.rounds n = 9) ∧ (18 ≤ n + 1 → n + 1 ≤ 26 → CipherCore.rounds n = 8) ∧
      (27 ≤ n + 1 → n + 1 ≤ 52 → CipherCore.rounds n = 7) ∧ (53 ≤ n + 1 → CipherCore.rounds n = 6)

/-- R142: the selector is bits 3:2 of the sum, so below 4, and its sequence for 32 rounds, with the sums of R143, is the
rule's. -/
def Obligations.SelectorSequence : Prop :=
  (∀ sum : Word, (CipherCore.selector sum).toNat = sum.toNat / 4 % 4) ∧
    (List.range 32).map (fun i => (CipherCore.selector (BitVec.ofNat 32 (i + 1) * CipherCore.delta)).toNat) =
      [2, 0, 2, 1, 3, 1, 3, 2, 0, 2, 0, 3, 1, 3, 1, 0, 2, 0, 2, 1, 3, 1, 3, 2, 0, 2, 0, 3, 1, 3, 1, 0]

/-- R161: before iteration i the sum is (q - i)·DELTA, which is first 0 at i = q, so the while loop of decryption is
`repeat q times`: q rounds in a row with those sums, after which the sum is 0. That the loop is written with a bound on its
iterations is the model's (DEDUCED, notes/assumptions/16); no longer bound changes it. -/
def Obligations.DecryptionLoopRunsRoundCountTimes : Prop :=
  ∀ (n : Nat) (k : Key) (vy : Words × Word),
    (∀ i, i ≤ CipherCore.rounds n →
      (CipherCore.decStartSum n - BitVec.ofNat 32 i * CipherCore.delta =
        BitVec.ofNat 32 (CipherCore.rounds n - i) * CipherCore.delta) ∧
      (BitVec.ofNat 32 (CipherCore.rounds n - i) * CipherCore.delta = 0#32 ↔ i = CipherCore.rounds n)) ∧
    CipherCore.decLoop k n (CipherCore.rounds n) (CipherCore.decStartSum n) vy =
      (0#32, (List.range (CipherCore.rounds n)).foldl
        (fun a i => CipherCore.decRound k n (BitVec.ofNat 32 (CipherCore.rounds n - i) * CipherCore.delta) a) vy) ∧
    (∀ more, CipherCore.decLoop k n (CipherCore.rounds n + more) (CipherCore.decStartSum n) vy =
      CipherCore.decLoop k n (CipherCore.rounds n) (CipherCore.decStartSum n) vy) ∧
    (CipherCore.rounds n = 58 → CipherCore.decStartSum n = 0xD89193EA#32) ∧
    (CipherCore.rounds n = 32 → CipherCore.decStartSum n = 0xC6EF3720#32) ∧
    (CipherCore.rounds n = 23 → CipherCore.decStartSum n = 0x36FBEF9F#32)

/-- R125: on two words or more, each round loop undoes the other. -/
def Obligations.RoundLoopsAreInverse : Prop :=
  ∀ (v : Words) (k : Key), 2 ≤ v.length →
    CipherCore.decWords (CipherCore.encWords v k) k = v ∧ CipherCore.encWords (CipherCore.decWords v k) k = v

/-- R147 with R250: exactly q·(n+1) mix evaluations over the working state, one position at a time with the dataflow of
R147, give the words of the encryption round loop, and complete its q rounds, for every buffer whose positions
are `u32`s. That the working state advances by steps of its own is the model's choice (notes/assumptions/8). -/
def Obligations.EncryptWorkingStateComputesEncWords : Prop :=
  ∀ (v : Words) (k : Key), 2 ≤ v.length → v.length ≤ 2 ^ 32 →
    (mixTimes .encrypt k (CipherCore.rounds (v.length - 1) * v.length) (CipherCore.encStart v)).v =
        CipherCore.encWords v k ∧
      (mixTimes .encrypt k (CipherCore.rounds (v.length - 1) * v.length) (CipherCore.encStart v)).round.toNat =
        CipherCore.rounds (v.length - 1)

/-- R166 with R250: the same for decryption, for one word (R164) as well (notes/assumptions/8). -/
def Obligations.DecryptWorkingStateComputesDecWords : Prop :=
  ∀ (v : Words) (k : Key), 1 ≤ v.length → v.length ≤ 2 ^ 32 →
    (mixTimes .decrypt k (CipherCore.rounds (v.length - 1) * v.length) (CipherCore.decStart v)).v =
        CipherCore.decWords v k ∧
      (mixTimes .decrypt k (CipherCore.rounds (v.length - 1) * v.length) (CipherCore.decStart v)).round.toNat =
        CipherCore.rounds (v.length - 1)

/-- R146: a ciphertext has one word for each 4 bytes of padded plaintext, and the sentinel word. -/
def Obligations.CiphertextLength : Prop :=
  ∀ (pt : Bytes) (k : Key), 1 ≤ pt.length →
    (CipherCore.encrypt pt k).length = 4 * ((pt.length + 3) / 4 + 1)

/-- R163: a plaintext is shorter than its non-empty ciphertext. -/
def Obligations.PlaintextIsShorter : Prop :=
  ∀ (ct b : Bytes) (k : Key), 1 ≤ ct.length → CipherCore.decrypt ct k = .ok b →
    b.length < ct.length ∧ b.length ≤ 4 * ((ct.length + 3) / 4 - 1)

/-- R165: decryption gives back every plaintext that a buffer of any permitted size can hold. -/
def Obligations.DecryptUndoesEncrypt : Prop :=
  ∀ (c : Params) (pt : Bytes) (k : Key), c.wellFormed = true → pt.length ≤ 4 * (c.maxWords - 1) →
    CipherCore.decrypt (CipherCore.encrypt pt k) k = .ok pt

/-- R164: a ciphertext of one word w is decrypted by 58 wraparound steps with y = z = v[0], and is accepted only when
they give 0. -/
def Obligations.OneWordCiphertext : Prop :=
  ∀ (b0 b1 b2 b3 : Byte) (k : Key),
    let w := WordCodec.le32 b0 b1 b2 b3
    let x := (List.range 58).foldl (fun (a : Word) i =>
      a - MixEngine.mix (BitVec.ofNat 32 (58 - i) * CipherCore.delta) a a 0
        (CipherCore.selector (BitVec.ofNat 32 (58 - i) * CipherCore.delta)) k) w
    CipherCore.decWords [w] k = [x] ∧
      CipherCore.decrypt [b0, b1, b2, b3] k = if x = 0#32 then .ok [] else .error .malformedCiphertext

/-- R167: a ciphertext of any words whose last is an in-range sentinel is accepted, whatever the padding bytes are. -/
def Obligations.AnyInRangeSentinelIsAccepted : Prop :=
  ∀ (ws : Words) (m : Word) (k : Key), 1 ≤ ws.length → 4 * ws.length ≤ m.toNat + 3 → m.toNat ≤ 4 * ws.length →
    CipherCore.decrypt (WordCodec.unpack (CipherCore.encWords (ws ++ [m]) k)) k =
      .ok ((WordCodec.unpack ws).take m.toNat)

/-! ### The message buffer and the register block (10_state.md, 20_memory.md) -/

/-- R52: `MemRead` lists the bytes at its offsets, `MemWrite` then `MemRead` gives the bytes written, every other byte is
kept, byte j of DATA[i] is the byte at view offset 4i + j, and the words of the bytes read are the DATA words. -/
def Obligations.DataByteView : Prop :=
  ∀ (s : State) (a : Nat) (b : Bytes),
    (s.memWrite a b).memRead a b.length = b ∧
      (∀ c, c < a ∨ a + b.length ≤ c → (s.memWrite a b).byteAt c = s.byteAt c) ∧
      (∀ i j, j < 4 → WordCodec.byteOf (s.dataWord i) j = s.byteAt (4 * i + j)) ∧
      (∀ n, s.memRead a n = (List.range n).map fun j => s.byteAt (a + j)) ∧
      (∀ n, WordCodec.decode (s.memRead 0 (4 * n)) false = (List.range n).map s.dataWord)

/-- R22, R30: what every aligned offset of the block selects. -/
def Obligations.RegisterMap : Prop :=
  ∀ c : Params,
    decodeOffset c 0x000 = .reg .cmd ∧ decodeOffset c 0x004 = .reg .status ∧ decodeOffset c 0x008 = .reg .len ∧
      decodeOffset c 0x00C = .reg .outlen ∧ (∀ j : Fin 4, decodeOffset c (0x010 + 4 * j.val) = .reg (.key j)) ∧
      decodeOffset c 0x020 = .reg .capacity ∧
      (∀ o, 0x024 ≤ o → o ≤ 0x0FF → o % 4 = 0 → decodeOffset c o = .reg .reserved) ∧
      (∀ i, i < c.maxWords → decodeOffset c (0x100 + 4 * i) = .reg (.data i)) ∧
      (∀ o, 0x100 + 4 * c.maxWords ≤ o → decodeOffset c o = .outside)

/-- R24, R200: the bits of STATUS and the error codes. -/
def Obligations.StatusLayout : Prop :=
  ∀ (busy done : Bool) (err : ErrCode),
    (statusOf busy done err).getLsbD 0 = busy ∧ (statusOf busy done err).getLsbD 1 = done ∧
      (statusOf busy done err).extractLsb' 2 2 = 0#2 ∧ (statusOf busy done err).extractLsb' 4 4 = err.code ∧
      (statusOf busy done err).extractLsb' 8 24 = 0#24 ∧
      ErrCode.none.code = 0#4 ∧ ErrCode.malformed.code = 1#4 ∧ ErrCode.illegalCmd.code = 2#4 ∧ ErrCode.capacity.code = 3#4

/-- R36: while CORE is idle, a write of LEN, KEYj or DATA[i] stores its value and changes nothing else, a write of a
read-only register or a reserved offset changes nothing, and a read returns the current value and changes nothing but
the host's note of it. STATUS never changes. -/
def Obligations.IdleAccessesReadAndStore : Prop :=
  ∀ (s : State) (w : Word), s.idle →
    (busWrite 0x008 w s = .next { s with len := w }) ∧
    (∀ j : Fin 4, ∃ t, busWrite (0x010 + 4 * j.val) w s = .next t ∧ t.key.word j.val = w ∧
      (∀ i : Fin 4, i ≠ j → t.key.word i.val = s.key.word i.val) ∧ t = { s with key := t.key }) ∧
    (∀ i, i < s.params.maxWords → ∃ t, busWrite (0x100 + 4 * i) w s = .next t ∧ t.dataWord i = w ∧
      (∀ a, a < 4 * i ∨ 4 * i + 4 ≤ a → t.byteAt a = s.byteAt a) ∧ t = { s with data := t.data }) ∧
    (∀ (o : Nat) (r : Reg), decodeOffset s.params o = .reg r →
      r = .status ∨ r = .outlen ∨ r = .capacity ∨ r = .reserved → busWrite o w s = .next s) ∧
    (∀ (o : Nat) (r : Reg), decodeOffset s.params o = .reg r →
      busRead o (fun _ t => t) s =
        .next { s with reads := (match r with
          | .cmd => 0#32
          | .status => s.statusWord
          | .len => s.len
          | .outlen => s.outlen
          | .key j => s.key.word j.val
          | .capacity => BitVec.ofNat 32 s.params.maxWords
          | .reserved => 0#32
          | .data i => s.dataWord i) :: s.reads })

/-- R35 on writes: while a command runs, a write of any register of the block changes no state (the spec also
lets a model fault it, notes/assumptions/12). -/
def Obligations.WritesWhileBusyAreIgnored : Prop :=
  ∀ (s : State) (offset : Nat) (w : Word), s.busy = true → offsetWellFormed s.params offset = true →
    busWrite offset w s = .next s

/-- R35 on reads: while a command runs, STATUS, LEN, KEY and CAPACITY read their current values, OUTLEN, CMD and the
reserved offsets read 0, and two reads of DATA in a row return two draws of their own (notes/assumptions/3). No register
changes. -/
def Obligations.ReadsWhileBusy : Prop :=
  ∀ s : State, s.busy = true → s.inReset = false →
    (∀ (o : Nat) (r : Reg), decodeOffset s.params o = .reg r → (∀ i, r ≠ .data i) →
      busRead o (fun _ t => t) s =
        .next { s with reads := (match r with
          | .status => s.statusWord
          | .len => s.len
          | .key j => s.key.word j.val
          | .capacity => BitVec.ofNat 32 s.params.maxWords
          | _ => 0#32) :: s.reads }) ∧
    (∀ i, i < s.params.maxWords →
      busRead (0x100 + 4 * i) (fun _ t => t) s =
        .next { s with busyReads := s.busyReads + 1, reads := Config.freeBusyWord s.busyReads :: s.reads })

/-- R54, R53: an access inside the block that is 32 bits wide and aligned completes, and is the write or the read of the
offset its address has from BASE; another one inside it is a fault; an access outside the block is the
platform's business (R30; notes/assumptions/10, 11). -/
def Obligations.BusErrors : Prop :=
  ∀ (s : State) (a : Access), s.params.wellFormed = true →
    (a.wellFormed s.params = true → Completes (busAccess a s) ∧
      (∀ w, a.value = some w → busAccess a s = busWrite (a.addr - s.params.base) w s) ∧
      (a.value = none → busAccess a s = busRead (a.addr - s.params.base) (fun _ t => t) s)) ∧
    (s.params.base ≤ a.addr → a.addr < s.params.base + (0x100 + 4 * s.params.maxWords) →
      a.bits ≠ 32 ∨ a.addr % 4 ≠ 0 → ∃ f, busAccess a s = .fault f) ∧
    (a.addr < s.params.base ∨ s.params.base + (0x100 + 4 * s.params.maxWords) ≤ a.addr →
      busAccess a s = .refused .outsideBlock)

/-- R75: a host turn on `poll` reads once; the poll is over when the value read matches under the mask, and otherwise
stands before the rest of the program again. One read at each turn is the model's choice (notes/assumptions/22). -/
def Obligations.PollReadsUntilItMatches : Prop :=
  ∀ (s : State) (o : Nat) (r : Reg) (mask w : Word) (ops : List HostOp), s.program = .poll o mask w :: ops →
    decodeOffset s.params o = .reg r →
    ∃ t, hostTurn s = .next t ∧ t.reads = s.readValue r :: s.reads ∧
      t.program = (if s.readValue r &&& mask = w then ops else .poll o mask w :: ops) ∧
      t = { s with program := t.program, reads := t.reads, busyReads := t.busyReads }

/-- R76: a host turn on `RESULT` reads OUTLEN, which is 0 while BUSY (R35) and in reset (R240), and then has exactly as many
DATA words to read as that length needs before the rest of the program. Each read as a turn of its own is the model's
choice (notes/assumptions/22). -/
def Obligations.ResultReadsOutlenThenData : Prop :=
  ∀ (s : State) (ops : List HostOp), s.program = .result :: ops →
    let m := if s.busy || s.inReset then 0#32 else s.outlen
    ∃ t, hostTurn s = .next t ∧ t.reads = m :: s.reads ∧
      t.program = (List.range ((m.toNat + 3) / 4)).map (fun i => .read (0x100 + 4 * i)) ++ ops ∧
      t = { s with program := t.program, reads := t.reads }

/-! ### Acceptance (10_state.md rule R33, 60_exceptions.md) -/

/-- R202: a word whose OP is neither 0x1 nor 0x2 or whose RSVD is not 0 finishes at once with ILLEGAL_CMD. -/
def Obligations.IllegalWordFinishesAtOnce : Prop :=
  ∀ (s : State) (c : Word), s.idle → (rsvdField c ≠ 0#28 ∨ (opField c ≠ 0x1#4 ∧ opField c ≠ 0x2#4)) →
    ∃ t, busWrite 0x000 c s = .next t ∧ t.busy = false ∧ t.done = true ∧ t.err = .illegalCmd ∧
      t.statusWord = 0x00000022#32 ∧ t.outlen = 0#32 ∧
      s.sameInputs t ∧ t.data = s.data ∧ t.dataEpoch = s.dataEpoch ∧ t.pending = s.pending

/-- R145, R33: what accepting ENCRYPT does, for every LEN. That the pending operation holds the words it works on, and the
round it is in, beside DATA is the model's choice (notes/assumptions/8). -/
def Obligations.EncryptAcceptance : Prop :=
  ∀ s : State, s.idle →
    ∃ t, exec .encrypt s = .next t ∧ s.sameInputs t ∧ t.data = s.data ∧ t.dataEpoch = s.dataEpoch ∧ t.outlen = 0#32 ∧
      if 4 * (s.params.maxWords - 1) < s.len.toNat then t.statusWord = 0x00000032#32 ∧ t.pending = s.pending
      else if s.len = 0#32 then t.statusWord = 0x00000002#32 ∧ t.pending = s.pending
      else t.statusWord = 0x00000001#32 ∧
        ∃ w, t.pending = some { cmd := .encrypt, len := s.len, work := w } ∧ w.round = 0#32 ∧
          w.v = WordCodec.decode (s.memRead 0 s.len.toNat) true

/-- R163, R33: what accepting DECRYPT does, for every LEN. That the pending operation holds the words it works on, and the
round it is in, beside DATA is the model's choice (notes/assumptions/8). -/
def Obligations.DecryptAcceptance : Prop :=
  ∀ s : State, s.idle →
    ∃ t, exec .decrypt s = .next t ∧ s.sameInputs t ∧ t.data = s.data ∧ t.dataEpoch = s.dataEpoch ∧ t.outlen = 0#32 ∧
      if 4 * s.params.maxWords < s.len.toNat then t.statusWord = 0x00000032#32 ∧ t.pending = s.pending
      else if s.len = 0#32 then t.statusWord = 0x00000002#32 ∧ t.pending = s.pending
      else if s.len.toNat ≤ 3 then t.statusWord = 0x00000012#32 ∧ t.pending = s.pending
      else t.statusWord = 0x00000001#32 ∧
        ∃ w, t.pending = some { cmd := .decrypt, len := s.len, work := w } ∧ w.round = 0#32 ∧
          w.v = WordCodec.decode (s.memRead 0 s.len.toNat) false

/-- R203: CAPACITY, for both commands. -/
def Obligations.CapacityError : Prop :=
  ∀ (s : State) (i : Instr), s.idle →
    (match i with
      | .encrypt => 4 * (s.params.maxWords - 1)
      | .decrypt => 4 * s.params.maxWords) < s.len.toNat →
    ∃ t, exec i s = .next t ∧ t.busy = false ∧ t.done = true ∧ t.err = .capacity ∧ t.statusWord = 0x00000032#32 ∧
      t.outlen = 0#32 ∧ s.sameInputs t ∧ t.data = s.data ∧ t.dataEpoch = s.dataEpoch

/-- R204: one command reports at most one error, the first that applies in the rule's order; a command that is processed
ends in success or, for DECRYPT only, in MALFORMED. -/
def Obligations.OneErrorInPriorityOrder : Prop :=
  ∀ (s : State) (c : Word), s.idle →
    ∃ t, busWrite 0x000 c s = .next t ∧
      if c ≠ 0x00000001#32 ∧ c ≠ 0x00000002#32 then t.statusWord = 0x00000022#32
      else if (c = 0x00000001#32 ∧ 4 * (s.params.maxWords - 1) < s.len.toNat) ∨
          (c = 0x00000002#32 ∧ 4 * s.params.maxWords < s.len.toNat) then t.statusWord = 0x00000032#32
      else if s.len = 0#32 then t.statusWord = 0x00000002#32 ∧ t.outlen = 0#32
      else if c = 0x00000002#32 ∧ s.len.toNat ≤ 3 then t.statusWord = 0x00000012#32
      else t.statusWord = 0x00000001#32 ∧ ∃ u, coreTurn t = .next u ∧
        (u.statusWord = 0x00000002#32 ∨ (c = 0x00000002#32 ∧ u.statusWord = 0x00000012#32))

/-- R35, R240: a command written while one runs, or while reset is asserted, changes nothing. Ignoring it rather
than faulting, and checking it in the command itself, are the model's (notes/assumptions/12, 18). -/
def Obligations.CommandTurnedAway : Prop :=
  ∀ (s : State) (i : Instr), s.busy = true ∨ s.inReset = true → exec i s = .next s

/-! ### Completion (10_state.md rule R34) -/

/-- R34 for ENCRYPT: the ciphertext of the input bytes under the key registers is DATA bytes [0, len), OUTLEN is its
length whenever 32 bits can hold it (notes/assumptions/4), every DATA byte past it is a new draw (notes/assumptions/2),
and BUSY gives way to DONE. -/
def Obligations.EncryptCompletion : Prop :=
  ∀ (s : State) (p : Pending), s.busy = true → s.pending = some p → p.cmd = .encrypt →
    ∃ t, coreTurn s = .next t ∧ s.sameInputs t ∧ t.statusWord = 0x00000002#32 ∧ t.pending = none ∧
      t.memRead 0 (CipherCore.encrypt (s.memRead 0 p.len.toNat) s.key).length =
        CipherCore.encrypt (s.memRead 0 p.len.toNat) s.key ∧
      ((CipherCore.encrypt (s.memRead 0 p.len.toNat) s.key).length < 2 ^ 32 →
        t.outlen.toNat = (CipherCore.encrypt (s.memRead 0 p.len.toNat) s.key).length) ∧
      (∀ a, (CipherCore.encrypt (s.memRead 0 p.len.toNat) s.key).length ≤ a →
        t.byteAt a = Config.freeDataByte (s.dataEpoch + 1) a)

/-- R34 for DECRYPT: on success the plaintext is published as in R34; on MalformedCiphertext every DATA byte is a new draw
(notes/assumptions/2), OUTLEN is 0 and STATUS reports MALFORMED. -/
def Obligations.DecryptCompletion : Prop :=
  ∀ (s : State) (p : Pending), s.busy = true → s.pending = some p → p.cmd = .decrypt →
    ∃ t, coreTurn s = .next t ∧ s.sameInputs t ∧ t.pending = none ∧
      match CipherCore.decrypt (s.memRead 0 p.len.toNat) s.key with
      | .ok b => t.statusWord = 0x00000002#32 ∧ t.outlen.toNat = b.length ∧ t.memRead 0 b.length = b ∧
          ∀ a, b.length ≤ a → t.byteAt a = Config.freeDataByte (s.dataEpoch + 1) a
      | .error _ => t.statusWord = 0x00000012#32 ∧ t.outlen = 0#32 ∧
          ∀ a, t.byteAt a = Config.freeDataByte (s.dataEpoch + 1) a

/-- R145 as a whole: ENCRYPT accepted on an idle CORE with an input that fits, and then completed. -/
def Obligations.EncryptCommand : Prop :=
  ∀ s : State, s.idle → 1 ≤ s.len.toNat → s.len.toNat ≤ 4 * (s.params.maxWords - 1) →
    ∃ t u, exec .encrypt s = .next t ∧ t.statusWord = 0x00000001#32 ∧ coreTurn t = .next u ∧
      u.statusWord = 0x00000002#32 ∧ s.sameInputs u ∧
      (4 * ((s.len.toNat + 3) / 4 + 1) < 2 ^ 32 → u.outlen.toNat = 4 * ((s.len.toNat + 3) / 4 + 1)) ∧
      ∀ i, i ≤ (s.len.toNat + 3) / 4 →
        u.dataWord i = (CipherCore.encWords (WordCodec.decode (s.memRead 0 s.len.toNat) true) s.key).getD i 0#32

/-- R163 as a whole: DECRYPT accepted on an idle CORE with four bytes or more that fit, and then completed. -/
def Obligations.DecryptCommand : Prop :=
  ∀ s : State, s.idle → 4 ≤ s.len.toNat → s.len.toNat ≤ 4 * s.params.maxWords →
    ∃ t u, exec .decrypt s = .next t ∧ t.statusWord = 0x00000001#32 ∧ coreTurn t = .next u ∧ s.sameInputs u ∧
      ∀ (ws : Words) (m : Word),
        CipherCore.decWords (WordCodec.decode (s.memRead 0 s.len.toNat) false) s.key = ws ++ [m] →
        if 4 * ws.length ≤ m.toNat + 3 ∧ m.toNat ≤ 4 * ws.length then
          u.statusWord = 0x00000002#32 ∧ u.outlen = m ∧ u.memRead 0 m.toNat = (WordCodec.unpack ws).take m.toNat
        else u.statusWord = 0x00000012#32 ∧ u.outlen = 0#32

/-- R165 on the machine: ENCRYPT, completion, LEN <- OUTLEN, DECRYPT, completion gives back the input bytes and their
length, for every input that fits and whose ciphertext length OUTLEN can hold (notes/assumptions/4). -/
def Obligations.MachineRoundTrip : Prop :=
  ∀ s : State, s.params.wellFormed = true → s.idle → 1 ≤ s.len.toNat → s.len.toNat ≤ 4 * (s.params.maxWords - 1) →
    4 * ((s.len.toNat + 3) / 4 + 1) < 2 ^ 32 →
    ∃ t1 t2 t3 t4 t5, exec .encrypt s = .next t1 ∧ coreTurn t1 = .next t2 ∧ busWrite 0x008 t2.outlen t2 = .next t3 ∧
      exec .decrypt t3 = .next t4 ∧ coreTurn t4 = .next t5 ∧ t5.statusWord = 0x00000002#32 ∧ t5.outlen = s.len ∧
      t5.memRead 0 s.len.toNat = s.memRead 0 s.len.toNat ∧ t5.key = s.key ∧ t5.len = t2.outlen

/-- R104: two running commands with the same input bytes [0, L) and key end in the same result, whatever DATA holds past
L and however far their working states are (notes/assumptions/8). OUTLEN is included whenever 32 bits hold the length of the
result (notes/assumptions/4). -/
def Obligations.BytesPastLengthDoNotMatter : Prop :=
  ∀ (s s' : State) (p p' : Pending), s.busy = true → s'.busy = true → s.pending = some p → s'.pending = some p' →
    p'.cmd = p.cmd → p'.len = p.len → s'.key = s.key →
    (∀ a, a < p.len.toNat → s'.byteAt a = s.byteAt a) →
    ∃ t t', coreTurn s = .next t ∧ coreTurn s' = .next t' ∧ t'.statusWord = t.statusWord ∧ t'.data = t.data ∧
      (p.cmd = .decrypt ∨ 4 * ((p.len.toNat + 3) / 4 + 1) < 2 ^ 32 → t'.outlen = t.outlen)

/-- R32: a mix evaluation of the working state is seen by no host access and changes no completion. The mix
turn is the model's choice (notes/assumptions/8). -/
def Obligations.WorkingStateIsInvisible : Prop :=
  ∀ s : State,
    mixTurn s = { s with pending := (mixTurn s).pending } ∧ (mixTurn s).pending.isSome = s.pending.isSome ∧
      (∀ r : Reg, (mixTurn s).readValue r = s.readValue r) ∧
      (s.busy = true → s.pending.isSome = true → coreTurn (mixTurn s) = coreTurn s)

/-- R247: with nothing for the host to do, a running command is over after the turns that are given and one more step.
Unless reset was asserted (R241), it is over by its completion: DONE is set, with the very result that a completion at once
would have given.
The default turn that takes it is the model's form of weak fairness (notes/assumptions/7). -/
def Obligations.CompletionIsReached : Prop :=
  ∀ s : State, s.program = [] → s.busy = true → s.pending.isSome = true →
    ∃ n t, n ≤ s.turns.length + 1 ∧ Host.Core.run Sys2Proof.core n s = .next t ∧ t.busy = false ∧
      (s.inReset = false → .assertReset ∉ s.turns →
        t.done = true ∧ ∃ u, coreTurn s = .next u ∧ t = { u with turns := t.turns })

/-! ### Reset (70_reset_and_hazards.md) -/

/-- R37: the values after reset; DATA is unspecified: the form of its draws is the model's choice (notes/assumptions/2). -/
def Obligations.ResetValues : Prop :=
  State.reset.statusWord = 0x00000000#32 ∧ State.reset.len = 0#32 ∧ State.reset.outlen = 0#32 ∧
    (∀ j : Fin 4, State.reset.key.word j.val = 0#32) ∧
    State.reset.readValue .capacity = BitVec.ofNat 32 State.reset.params.maxWords ∧
    State.reset.readValue .cmd = 0#32 ∧ (∀ a, State.reset.byteAt a = Config.freeDataByte State.reset.dataEpoch a) ∧
    State.reset.pending = none ∧ State.reset.idle

/-- R240, R241: asserting reset gives every register its reset value and abandons a running command; while it is asserted
writes are ignored and reads return 0, except CAPACITY; its release leaves the same values and an idle CORE. The
form of DATA's draws and the two events are the model's choice (notes/assumptions/2, 13). -/
def Obligations.ResetEvent : Prop :=
  ∀ s : State, ∃ t, takeTurn .assertReset s = .next t ∧ t.inReset = true ∧ t.statusWord = 0#32 ∧ t.len = 0#32 ∧
    t.outlen = 0#32 ∧ (∀ j : Fin 4, t.key.word j.val = 0#32) ∧ t.pending = none ∧
    (∀ a, t.byteAt a = Config.freeDataByte t.dataEpoch a) ∧ coreTurn t = .next t ∧
    (∀ offset w, offsetWellFormed t.params offset = true → busWrite offset w t = .next t) ∧
    (∀ (o : Nat) (r : Reg), decodeOffset t.params o = .reg r →
      busRead o (fun _ u => u) t =
        .next { t with reads :=
          (if r = .capacity then BitVec.ofNat 32 t.params.maxWords else 0#32) :: t.reads }) ∧
    ∃ u, takeTurn .releaseReset t = .next u ∧ u.idle ∧ u.statusWord = 0#32 ∧ u.len = 0#32 ∧ u.outlen = 0#32 ∧
      (∀ j : Fin 4, u.key.word j.val = 0#32) ∧ u.pending = none ∧
      (∀ a, u.byteAt a = Config.freeDataByte u.dataEpoch a)

/-! ### Whole steps -/

/-- The invariant holds right after reset. -/
def Obligations.ResetMeetsInvariant : Prop := State.reset.Inv ∧ State.reset.WorkAgrees

/-- Every step keeps the invariant: memory in canonical form and inside the buffer, BUSY and DONE never together (R24),
ERR only with DONE (R24), OUTLEN 0 on an error and before completion (R26), an operation pending exactly while BUSY with
the length in LEN (R33, R35), reset values held while reset is asserted (R240). -/
def Obligations.StepKeepsInvariant : Prop :=
  ∀ s t : State, s.Inv → step s = .next t → t.Inv

/-- Every step keeps the working state what some number of mix evaluations make of the inputs in the registers (R31, R35):
nothing disturbs a running command (notes/assumptions/8). -/
def Obligations.StepKeepsWorkingStateTrue : Prop :=
  ∀ s t : State, s.Inv → s.WorkAgrees → step s = .next t → t.WorkAgrees

/-- A step stops only on a host operation that R54 does not permit. -/
def Obligations.OnlyBusMisuseStops : Prop :=
  ∀ s : State, (∀ op ops, s.program = op :: ops → op.wellFormed s.params = true) → Completes (step s)

/-- R28, R9: no step changes MAX_WORDS or BASE, so CAPACITY always reads the same. -/
def Obligations.CapacityIsConstant : Prop :=
  ∀ s t : State, step s = .next t →
    t.params = s.params ∧ t.readValue .capacity = s.readValue .capacity

/-- R25, R27: neither a command nor its completion nor a mix evaluation writes LEN or a KEY register. The
mix turn is the model's choice (notes/assumptions/8). -/
def Obligations.CommandsKeepLenAndKey : Prop :=
  ∀ s : State,
    (∀ i, ∃ t, exec i s = .next t ∧ t.len = s.len ∧ t.key = s.key) ∧
    (∃ t, coreTurn s = .next t ∧ t.len = s.len ∧ t.key = s.key) ∧
    (∃ t, takeTurn .mix s = .next t ∧ t.len = s.len ∧ t.key = s.key)

/-- R206: a reported error stays in STATUS until a write to CMD or a reset. -/
def Obligations.ErrorStaysUntilNextCommand : Prop :=
  ∀ s t : State, s.Inv → s.err ≠ .none → step s = .next t → t.err ≠ s.err →
    (∃ ts, s.turns = .assertReset :: ts) ∨
      (∃ c ops, s.program = .write 0x000 c :: ops) ∨
      (∃ a ops, s.program = .access a :: ops ∧ a.addr = s.params.base ∧ a.value.isSome = true)
end

