-- ==== Sys2Proof/Laws/State.lean ====
section
/-! SUPPORT. One lemma for each field under each named update of the state, true by definition, so that no proof unfolds
an update. -/

namespace Sys2Proof.Machine

/-! ### `State.memWrite` -/

@[simp] theorem State.memWrite_params (s : State) (a : Nat) (b : Bytes) : (s.memWrite a b).params = s.params := rfl
@[simp] theorem State.memWrite_len (s : State) (a : Nat) (b : Bytes) : (s.memWrite a b).len = s.len := rfl
@[simp] theorem State.memWrite_outlen (s : State) (a : Nat) (b : Bytes) : (s.memWrite a b).outlen = s.outlen := rfl
@[simp] theorem State.memWrite_key (s : State) (a : Nat) (b : Bytes) : (s.memWrite a b).key = s.key := rfl
@[simp] theorem State.memWrite_busy (s : State) (a : Nat) (b : Bytes) : (s.memWrite a b).busy = s.busy := rfl
@[simp] theorem State.memWrite_done (s : State) (a : Nat) (b : Bytes) : (s.memWrite a b).done = s.done := rfl
@[simp] theorem State.memWrite_err (s : State) (a : Nat) (b : Bytes) : (s.memWrite a b).err = s.err := rfl
@[simp] theorem State.memWrite_data (s : State) (a : Nat) (b : Bytes) : (s.memWrite a b).data = Memory.writeBytes s.data a b := rfl
@[simp] theorem State.memWrite_dataEpoch (s : State) (a : Nat) (b : Bytes) : (s.memWrite a b).dataEpoch = s.dataEpoch := rfl
@[simp] theorem State.memWrite_busyReads (s : State) (a : Nat) (b : Bytes) : (s.memWrite a b).busyReads = s.busyReads := rfl
@[simp] theorem State.memWrite_pending (s : State) (a : Nat) (b : Bytes) : (s.memWrite a b).pending = s.pending := rfl
@[simp] theorem State.memWrite_inReset (s : State) (a : Nat) (b : Bytes) : (s.memWrite a b).inReset = s.inReset := rfl
@[simp] theorem State.memWrite_program (s : State) (a : Nat) (b : Bytes) : (s.memWrite a b).program = s.program := rfl
@[simp] theorem State.memWrite_reads (s : State) (a : Nat) (b : Bytes) : (s.memWrite a b).reads = s.reads := rfl
@[simp] theorem State.memWrite_turns (s : State) (a : Nat) (b : Bytes) : (s.memWrite a b).turns = s.turns := rfl

/-! ### `State.writeDataWord` -/

@[simp] theorem State.writeDataWord_params (s : State) (i : Nat) (w : Word) : (s.writeDataWord i w).params = s.params := rfl
@[simp] theorem State.writeDataWord_len (s : State) (i : Nat) (w : Word) : (s.writeDataWord i w).len = s.len := rfl
@[simp] theorem State.writeDataWord_outlen (s : State) (i : Nat) (w : Word) : (s.writeDataWord i w).outlen = s.outlen := rfl
@[simp] theorem State.writeDataWord_key (s : State) (i : Nat) (w : Word) : (s.writeDataWord i w).key = s.key := rfl
@[simp] theorem State.writeDataWord_busy (s : State) (i : Nat) (w : Word) : (s.writeDataWord i w).busy = s.busy := rfl
@[simp] theorem State.writeDataWord_done (s : State) (i : Nat) (w : Word) : (s.writeDataWord i w).done = s.done := rfl
@[simp] theorem State.writeDataWord_err (s : State) (i : Nat) (w : Word) : (s.writeDataWord i w).err = s.err := rfl
@[simp] theorem State.writeDataWord_data (s : State) (i : Nat) (w : Word) : (s.writeDataWord i w).data = Memory.writeBytes s.data (4 * i) (WordCodec.bytes32 w) := rfl
@[simp] theorem State.writeDataWord_dataEpoch (s : State) (i : Nat) (w : Word) : (s.writeDataWord i w).dataEpoch = s.dataEpoch := rfl
@[simp] theorem State.writeDataWord_busyReads (s : State) (i : Nat) (w : Word) : (s.writeDataWord i w).busyReads = s.busyReads := rfl
@[simp] theorem State.writeDataWord_pending (s : State) (i : Nat) (w : Word) : (s.writeDataWord i w).pending = s.pending := rfl
@[simp] theorem State.writeDataWord_inReset (s : State) (i : Nat) (w : Word) : (s.writeDataWord i w).inReset = s.inReset := rfl
@[simp] theorem State.writeDataWord_program (s : State) (i : Nat) (w : Word) : (s.writeDataWord i w).program = s.program := rfl
@[simp] theorem State.writeDataWord_reads (s : State) (i : Nat) (w : Word) : (s.writeDataWord i w).reads = s.reads := rfl
@[simp] theorem State.writeDataWord_turns (s : State) (i : Nat) (w : Word) : (s.writeDataWord i w).turns = s.turns := rfl

/-! ### `State.forgetData` -/

@[simp] theorem State.forgetData_params (s : State) : (s.forgetData).params = s.params := rfl
@[simp] theorem State.forgetData_len (s : State) : (s.forgetData).len = s.len := rfl
@[simp] theorem State.forgetData_outlen (s : State) : (s.forgetData).outlen = s.outlen := rfl
@[simp] theorem State.forgetData_key (s : State) : (s.forgetData).key = s.key := rfl
@[simp] theorem State.forgetData_busy (s : State) : (s.forgetData).busy = s.busy := rfl
@[simp] theorem State.forgetData_done (s : State) : (s.forgetData).done = s.done := rfl
@[simp] theorem State.forgetData_err (s : State) : (s.forgetData).err = s.err := rfl
@[simp] theorem State.forgetData_data (s : State) : (s.forgetData).data = [] := rfl
@[simp] theorem State.forgetData_dataEpoch (s : State) : (s.forgetData).dataEpoch = s.dataEpoch + 1 := rfl
@[simp] theorem State.forgetData_busyReads (s : State) : (s.forgetData).busyReads = s.busyReads := rfl
@[simp] theorem State.forgetData_pending (s : State) : (s.forgetData).pending = s.pending := rfl
@[simp] theorem State.forgetData_inReset (s : State) : (s.forgetData).inReset = s.inReset := rfl
@[simp] theorem State.forgetData_program (s : State) : (s.forgetData).program = s.program := rfl
@[simp] theorem State.forgetData_reads (s : State) : (s.forgetData).reads = s.reads := rfl
@[simp] theorem State.forgetData_turns (s : State) : (s.forgetData).turns = s.turns := rfl

/-! ### `State.writeLen` -/

@[simp] theorem State.writeLen_params (s : State) (w : Word) : (s.writeLen w).params = s.params := rfl
@[simp] theorem State.writeLen_len (s : State) (w : Word) : (s.writeLen w).len = w := rfl
@[simp] theorem State.writeLen_outlen (s : State) (w : Word) : (s.writeLen w).outlen = s.outlen := rfl
@[simp] theorem State.writeLen_key (s : State) (w : Word) : (s.writeLen w).key = s.key := rfl
@[simp] theorem State.writeLen_busy (s : State) (w : Word) : (s.writeLen w).busy = s.busy := rfl
@[simp] theorem State.writeLen_done (s : State) (w : Word) : (s.writeLen w).done = s.done := rfl
@[simp] theorem State.writeLen_err (s : State) (w : Word) : (s.writeLen w).err = s.err := rfl
@[simp] theorem State.writeLen_data (s : State) (w : Word) : (s.writeLen w).data = s.data := rfl
@[simp] theorem State.writeLen_dataEpoch (s : State) (w : Word) : (s.writeLen w).dataEpoch = s.dataEpoch := rfl
@[simp] theorem State.writeLen_busyReads (s : State) (w : Word) : (s.writeLen w).busyReads = s.busyReads := rfl
@[simp] theorem State.writeLen_pending (s : State) (w : Word) : (s.writeLen w).pending = s.pending := rfl
@[simp] theorem State.writeLen_inReset (s : State) (w : Word) : (s.writeLen w).inReset = s.inReset := rfl
@[simp] theorem State.writeLen_program (s : State) (w : Word) : (s.writeLen w).program = s.program := rfl
@[simp] theorem State.writeLen_reads (s : State) (w : Word) : (s.writeLen w).reads = s.reads := rfl
@[simp] theorem State.writeLen_turns (s : State) (w : Word) : (s.writeLen w).turns = s.turns := rfl

/-! ### `State.writeKey` -/

@[simp] theorem State.writeKey_params (s : State) (j : Fin 4) (w : Word) : (s.writeKey j w).params = s.params := rfl
@[simp] theorem State.writeKey_len (s : State) (j : Fin 4) (w : Word) : (s.writeKey j w).len = s.len := rfl
@[simp] theorem State.writeKey_outlen (s : State) (j : Fin 4) (w : Word) : (s.writeKey j w).outlen = s.outlen := rfl
@[simp] theorem State.writeKey_key (s : State) (j : Fin 4) (w : Word) : (s.writeKey j w).key = s.key.write j w := rfl
@[simp] theorem State.writeKey_busy (s : State) (j : Fin 4) (w : Word) : (s.writeKey j w).busy = s.busy := rfl
@[simp] theorem State.writeKey_done (s : State) (j : Fin 4) (w : Word) : (s.writeKey j w).done = s.done := rfl
@[simp] theorem State.writeKey_err (s : State) (j : Fin 4) (w : Word) : (s.writeKey j w).err = s.err := rfl
@[simp] theorem State.writeKey_data (s : State) (j : Fin 4) (w : Word) : (s.writeKey j w).data = s.data := rfl
@[simp] theorem State.writeKey_dataEpoch (s : State) (j : Fin 4) (w : Word) : (s.writeKey j w).dataEpoch = s.dataEpoch := rfl
@[simp] theorem State.writeKey_busyReads (s : State) (j : Fin 4) (w : Word) : (s.writeKey j w).busyReads = s.busyReads := rfl
@[simp] theorem State.writeKey_pending (s : State) (j : Fin 4) (w : Word) : (s.writeKey j w).pending = s.pending := rfl
@[simp] theorem State.writeKey_inReset (s : State) (j : Fin 4) (w : Word) : (s.writeKey j w).inReset = s.inReset := rfl
@[simp] theorem State.writeKey_program (s : State) (j : Fin 4) (w : Word) : (s.writeKey j w).program = s.program := rfl
@[simp] theorem State.writeKey_reads (s : State) (j : Fin 4) (w : Word) : (s.writeKey j w).reads = s.reads := rfl
@[simp] theorem State.writeKey_turns (s : State) (j : Fin 4) (w : Word) : (s.writeKey j w).turns = s.turns := rfl

/-! ### `State.clearResult` -/

@[simp] theorem State.clearResult_params (s : State) : (s.clearResult).params = s.params := rfl
@[simp] theorem State.clearResult_len (s : State) : (s.clearResult).len = s.len := rfl
@[simp] theorem State.clearResult_outlen (s : State) : (s.clearResult).outlen = 0#32 := rfl
@[simp] theorem State.clearResult_key (s : State) : (s.clearResult).key = s.key := rfl
@[simp] theorem State.clearResult_busy (s : State) : (s.clearResult).busy = s.busy := rfl
@[simp] theorem State.clearResult_done (s : State) : (s.clearResult).done = false := rfl
@[simp] theorem State.clearResult_err (s : State) : (s.clearResult).err = .none := rfl
@[simp] theorem State.clearResult_data (s : State) : (s.clearResult).data = s.data := rfl
@[simp] theorem State.clearResult_dataEpoch (s : State) : (s.clearResult).dataEpoch = s.dataEpoch := rfl
@[simp] theorem State.clearResult_busyReads (s : State) : (s.clearResult).busyReads = s.busyReads := rfl
@[simp] theorem State.clearResult_pending (s : State) : (s.clearResult).pending = s.pending := rfl
@[simp] theorem State.clearResult_inReset (s : State) : (s.clearResult).inReset = s.inReset := rfl
@[simp] theorem State.clearResult_program (s : State) : (s.clearResult).program = s.program := rfl
@[simp] theorem State.clearResult_reads (s : State) : (s.clearResult).reads = s.reads := rfl
@[simp] theorem State.clearResult_turns (s : State) : (s.clearResult).turns = s.turns := rfl

/-! ### `State.finishNow` -/

@[simp] theorem State.finishNow_params (s : State) (code : ErrCode) : (s.finishNow code).params = s.params := rfl
@[simp] theorem State.finishNow_len (s : State) (code : ErrCode) : (s.finishNow code).len = s.len := rfl
@[simp] theorem State.finishNow_outlen (s : State) (code : ErrCode) : (s.finishNow code).outlen = 0#32 := rfl
@[simp] theorem State.finishNow_key (s : State) (code : ErrCode) : (s.finishNow code).key = s.key := rfl
@[simp] theorem State.finishNow_busy (s : State) (code : ErrCode) : (s.finishNow code).busy = false := rfl
@[simp] theorem State.finishNow_done (s : State) (code : ErrCode) : (s.finishNow code).done = true := rfl
@[simp] theorem State.finishNow_err (s : State) (code : ErrCode) : (s.finishNow code).err = code := rfl
@[simp] theorem State.finishNow_data (s : State) (code : ErrCode) : (s.finishNow code).data = s.data := rfl
@[simp] theorem State.finishNow_dataEpoch (s : State) (code : ErrCode) : (s.finishNow code).dataEpoch = s.dataEpoch := rfl
@[simp] theorem State.finishNow_busyReads (s : State) (code : ErrCode) : (s.finishNow code).busyReads = s.busyReads := rfl
@[simp] theorem State.finishNow_pending (s : State) (code : ErrCode) : (s.finishNow code).pending = s.pending := rfl
@[simp] theorem State.finishNow_inReset (s : State) (code : ErrCode) : (s.finishNow code).inReset = s.inReset := rfl
@[simp] theorem State.finishNow_program (s : State) (code : ErrCode) : (s.finishNow code).program = s.program := rfl
@[simp] theorem State.finishNow_reads (s : State) (code : ErrCode) : (s.finishNow code).reads = s.reads := rfl
@[simp] theorem State.finishNow_turns (s : State) (code : ErrCode) : (s.finishNow code).turns = s.turns := rfl

/-! ### `State.finishEmpty` -/

@[simp] theorem State.finishEmpty_params (s : State) : (s.finishEmpty).params = s.params := rfl
@[simp] theorem State.finishEmpty_len (s : State) : (s.finishEmpty).len = s.len := rfl
@[simp] theorem State.finishEmpty_outlen (s : State) : (s.finishEmpty).outlen = 0#32 := rfl
@[simp] theorem State.finishEmpty_key (s : State) : (s.finishEmpty).key = s.key := rfl
@[simp] theorem State.finishEmpty_busy (s : State) : (s.finishEmpty).busy = false := rfl
@[simp] theorem State.finishEmpty_done (s : State) : (s.finishEmpty).done = true := rfl
@[simp] theorem State.finishEmpty_err (s : State) : (s.finishEmpty).err = .none := rfl
@[simp] theorem State.finishEmpty_data (s : State) : (s.finishEmpty).data = s.data := rfl
@[simp] theorem State.finishEmpty_dataEpoch (s : State) : (s.finishEmpty).dataEpoch = s.dataEpoch := rfl
@[simp] theorem State.finishEmpty_busyReads (s : State) : (s.finishEmpty).busyReads = s.busyReads := rfl
@[simp] theorem State.finishEmpty_pending (s : State) : (s.finishEmpty).pending = s.pending := rfl
@[simp] theorem State.finishEmpty_inReset (s : State) : (s.finishEmpty).inReset = s.inReset := rfl
@[simp] theorem State.finishEmpty_program (s : State) : (s.finishEmpty).program = s.program := rfl
@[simp] theorem State.finishEmpty_reads (s : State) : (s.finishEmpty).reads = s.reads := rfl
@[simp] theorem State.finishEmpty_turns (s : State) : (s.finishEmpty).turns = s.turns := rfl

/-! ### `State.startCommand` -/

@[simp] theorem State.startCommand_params (s : State) (i : Instr) (w : Work) : (s.startCommand i w).params = s.params := rfl
@[simp] theorem State.startCommand_len (s : State) (i : Instr) (w : Work) : (s.startCommand i w).len = s.len := rfl
@[simp] theorem State.startCommand_outlen (s : State) (i : Instr) (w : Work) : (s.startCommand i w).outlen = s.outlen := rfl
@[simp] theorem State.startCommand_key (s : State) (i : Instr) (w : Work) : (s.startCommand i w).key = s.key := rfl
@[simp] theorem State.startCommand_busy (s : State) (i : Instr) (w : Work) : (s.startCommand i w).busy = true := rfl
@[simp] theorem State.startCommand_done (s : State) (i : Instr) (w : Work) : (s.startCommand i w).done = s.done := rfl
@[simp] theorem State.startCommand_err (s : State) (i : Instr) (w : Work) : (s.startCommand i w).err = s.err := rfl
@[simp] theorem State.startCommand_data (s : State) (i : Instr) (w : Work) : (s.startCommand i w).data = s.data := rfl
@[simp] theorem State.startCommand_dataEpoch (s : State) (i : Instr) (w : Work) : (s.startCommand i w).dataEpoch = s.dataEpoch := rfl
@[simp] theorem State.startCommand_busyReads (s : State) (i : Instr) (w : Work) : (s.startCommand i w).busyReads = s.busyReads := rfl
@[simp] theorem State.startCommand_pending (s : State) (i : Instr) (w : Work) : (s.startCommand i w).pending = some { cmd := i, len := s.len, work := w } := rfl
@[simp] theorem State.startCommand_inReset (s : State) (i : Instr) (w : Work) : (s.startCommand i w).inReset = s.inReset := rfl
@[simp] theorem State.startCommand_program (s : State) (i : Instr) (w : Work) : (s.startCommand i w).program = s.program := rfl
@[simp] theorem State.startCommand_reads (s : State) (i : Instr) (w : Work) : (s.startCommand i w).reads = s.reads := rfl
@[simp] theorem State.startCommand_turns (s : State) (i : Instr) (w : Work) : (s.startCommand i w).turns = s.turns := rfl

/-! ### `State.publish` -/

@[simp] theorem State.publish_params (s : State) (b : Bytes) : (s.publish b).params = s.params := rfl
@[simp] theorem State.publish_len (s : State) (b : Bytes) : (s.publish b).len = s.len := rfl
@[simp] theorem State.publish_outlen (s : State) (b : Bytes) : (s.publish b).outlen = s.lengthWord b.length := rfl
@[simp] theorem State.publish_key (s : State) (b : Bytes) : (s.publish b).key = s.key := rfl
@[simp] theorem State.publish_busy (s : State) (b : Bytes) : (s.publish b).busy = false := rfl
@[simp] theorem State.publish_done (s : State) (b : Bytes) : (s.publish b).done = true := rfl
@[simp] theorem State.publish_err (s : State) (b : Bytes) : (s.publish b).err = .none := rfl
@[simp] theorem State.publish_data (s : State) (b : Bytes) : (s.publish b).data = Memory.writeBytes [] 0 b := rfl
@[simp] theorem State.publish_dataEpoch (s : State) (b : Bytes) : (s.publish b).dataEpoch = s.dataEpoch + 1 := rfl
@[simp] theorem State.publish_busyReads (s : State) (b : Bytes) : (s.publish b).busyReads = s.busyReads := rfl
@[simp] theorem State.publish_pending (s : State) (b : Bytes) : (s.publish b).pending = none := rfl
@[simp] theorem State.publish_inReset (s : State) (b : Bytes) : (s.publish b).inReset = s.inReset := rfl
@[simp] theorem State.publish_program (s : State) (b : Bytes) : (s.publish b).program = s.program := rfl
@[simp] theorem State.publish_reads (s : State) (b : Bytes) : (s.publish b).reads = s.reads := rfl
@[simp] theorem State.publish_turns (s : State) (b : Bytes) : (s.publish b).turns = s.turns := rfl

/-! ### `State.publishMalformed` -/

@[simp] theorem State.publishMalformed_params (s : State) : (s.publishMalformed).params = s.params := rfl
@[simp] theorem State.publishMalformed_len (s : State) : (s.publishMalformed).len = s.len := rfl
@[simp] theorem State.publishMalformed_outlen (s : State) : (s.publishMalformed).outlen = 0#32 := rfl
@[simp] theorem State.publishMalformed_key (s : State) : (s.publishMalformed).key = s.key := rfl
@[simp] theorem State.publishMalformed_busy (s : State) : (s.publishMalformed).busy = false := rfl
@[simp] theorem State.publishMalformed_done (s : State) : (s.publishMalformed).done = true := rfl
@[simp] theorem State.publishMalformed_err (s : State) : (s.publishMalformed).err = .malformed := rfl
@[simp] theorem State.publishMalformed_data (s : State) : (s.publishMalformed).data = [] := rfl
@[simp] theorem State.publishMalformed_dataEpoch (s : State) : (s.publishMalformed).dataEpoch = s.dataEpoch + 1 := rfl
@[simp] theorem State.publishMalformed_busyReads (s : State) : (s.publishMalformed).busyReads = s.busyReads := rfl
@[simp] theorem State.publishMalformed_pending (s : State) : (s.publishMalformed).pending = none := rfl
@[simp] theorem State.publishMalformed_inReset (s : State) : (s.publishMalformed).inReset = s.inReset := rfl
@[simp] theorem State.publishMalformed_program (s : State) : (s.publishMalformed).program = s.program := rfl
@[simp] theorem State.publishMalformed_reads (s : State) : (s.publishMalformed).reads = s.reads := rfl
@[simp] theorem State.publishMalformed_turns (s : State) : (s.publishMalformed).turns = s.turns := rfl

/-! ### `State.clearAll` -/

@[simp] theorem State.clearAll_params (s : State) : (s.clearAll).params = s.params := rfl
@[simp] theorem State.clearAll_len (s : State) : (s.clearAll).len = 0#32 := rfl
@[simp] theorem State.clearAll_outlen (s : State) : (s.clearAll).outlen = 0#32 := rfl
@[simp] theorem State.clearAll_key (s : State) : (s.clearAll).key = { k0 := 0#32, k1 := 0#32, k2 := 0#32, k3 := 0#32 } := rfl
@[simp] theorem State.clearAll_busy (s : State) : (s.clearAll).busy = false := rfl
@[simp] theorem State.clearAll_done (s : State) : (s.clearAll).done = false := rfl
@[simp] theorem State.clearAll_err (s : State) : (s.clearAll).err = .none := rfl
@[simp] theorem State.clearAll_data (s : State) : (s.clearAll).data = [] := rfl
@[simp] theorem State.clearAll_dataEpoch (s : State) : (s.clearAll).dataEpoch = s.dataEpoch + 1 := rfl
@[simp] theorem State.clearAll_busyReads (s : State) : (s.clearAll).busyReads = s.busyReads := rfl
@[simp] theorem State.clearAll_pending (s : State) : (s.clearAll).pending = none := rfl
@[simp] theorem State.clearAll_inReset (s : State) : (s.clearAll).inReset = s.inReset := rfl
@[simp] theorem State.clearAll_program (s : State) : (s.clearAll).program = s.program := rfl
@[simp] theorem State.clearAll_reads (s : State) : (s.clearAll).reads = s.reads := rfl
@[simp] theorem State.clearAll_turns (s : State) : (s.clearAll).turns = s.turns := rfl

/-! ### `State.assertReset` -/

@[simp] theorem State.assertReset_params (s : State) : (s.assertReset).params = s.params := rfl
@[simp] theorem State.assertReset_len (s : State) : (s.assertReset).len = 0#32 := rfl
@[simp] theorem State.assertReset_outlen (s : State) : (s.assertReset).outlen = 0#32 := rfl
@[simp] theorem State.assertReset_key (s : State) : (s.assertReset).key = { k0 := 0#32, k1 := 0#32, k2 := 0#32, k3 := 0#32 } := rfl
@[simp] theorem State.assertReset_busy (s : State) : (s.assertReset).busy = false := rfl
@[simp] theorem State.assertReset_done (s : State) : (s.assertReset).done = false := rfl
@[simp] theorem State.assertReset_err (s : State) : (s.assertReset).err = .none := rfl
@[simp] theorem State.assertReset_data (s : State) : (s.assertReset).data = [] := rfl
@[simp] theorem State.assertReset_dataEpoch (s : State) : (s.assertReset).dataEpoch = s.dataEpoch + 1 := rfl
@[simp] theorem State.assertReset_busyReads (s : State) : (s.assertReset).busyReads = s.busyReads := rfl
@[simp] theorem State.assertReset_pending (s : State) : (s.assertReset).pending = none := rfl
@[simp] theorem State.assertReset_inReset (s : State) : (s.assertReset).inReset = true := rfl
@[simp] theorem State.assertReset_program (s : State) : (s.assertReset).program = s.program := rfl
@[simp] theorem State.assertReset_reads (s : State) : (s.assertReset).reads = s.reads := rfl
@[simp] theorem State.assertReset_turns (s : State) : (s.assertReset).turns = s.turns := rfl

/-! ### `State.afterRead` -/

@[simp] theorem State.afterRead_params (s : State) (r : Reg) : (s.afterRead r).params = s.params := rfl
@[simp] theorem State.afterRead_len (s : State) (r : Reg) : (s.afterRead r).len = s.len := rfl
@[simp] theorem State.afterRead_outlen (s : State) (r : Reg) : (s.afterRead r).outlen = s.outlen := rfl
@[simp] theorem State.afterRead_key (s : State) (r : Reg) : (s.afterRead r).key = s.key := rfl
@[simp] theorem State.afterRead_busy (s : State) (r : Reg) : (s.afterRead r).busy = s.busy := rfl
@[simp] theorem State.afterRead_done (s : State) (r : Reg) : (s.afterRead r).done = s.done := rfl
@[simp] theorem State.afterRead_err (s : State) (r : Reg) : (s.afterRead r).err = s.err := rfl
@[simp] theorem State.afterRead_data (s : State) (r : Reg) : (s.afterRead r).data = s.data := rfl
@[simp] theorem State.afterRead_dataEpoch (s : State) (r : Reg) : (s.afterRead r).dataEpoch = s.dataEpoch := rfl
@[simp] theorem State.afterRead_busyReads (s : State) (r : Reg) : (s.afterRead r).busyReads = if s.drawsOnRead r then s.busyReads + 1 else s.busyReads := rfl
@[simp] theorem State.afterRead_pending (s : State) (r : Reg) : (s.afterRead r).pending = s.pending := rfl
@[simp] theorem State.afterRead_inReset (s : State) (r : Reg) : (s.afterRead r).inReset = s.inReset := rfl
@[simp] theorem State.afterRead_program (s : State) (r : Reg) : (s.afterRead r).program = s.program := rfl
@[simp] theorem State.afterRead_reads (s : State) (r : Reg) : (s.afterRead r).reads = s.reads := rfl
@[simp] theorem State.afterRead_turns (s : State) (r : Reg) : (s.afterRead r).turns = s.turns := rfl

/-! ### `State.noteRead` -/

@[simp] theorem State.noteRead_params (s : State) (w : Word) : (s.noteRead w).params = s.params := rfl
@[simp] theorem State.noteRead_len (s : State) (w : Word) : (s.noteRead w).len = s.len := rfl
@[simp] theorem State.noteRead_outlen (s : State) (w : Word) : (s.noteRead w).outlen = s.outlen := rfl
@[simp] theorem State.noteRead_key (s : State) (w : Word) : (s.noteRead w).key = s.key := rfl
@[simp] theorem State.noteRead_busy (s : State) (w : Word) : (s.noteRead w).busy = s.busy := rfl
@[simp] theorem State.noteRead_done (s : State) (w : Word) : (s.noteRead w).done = s.done := rfl
@[simp] theorem State.noteRead_err (s : State) (w : Word) : (s.noteRead w).err = s.err := rfl
@[simp] theorem State.noteRead_data (s : State) (w : Word) : (s.noteRead w).data = s.data := rfl
@[simp] theorem State.noteRead_dataEpoch (s : State) (w : Word) : (s.noteRead w).dataEpoch = s.dataEpoch := rfl
@[simp] theorem State.noteRead_busyReads (s : State) (w : Word) : (s.noteRead w).busyReads = s.busyReads := rfl
@[simp] theorem State.noteRead_pending (s : State) (w : Word) : (s.noteRead w).pending = s.pending := rfl
@[simp] theorem State.noteRead_inReset (s : State) (w : Word) : (s.noteRead w).inReset = s.inReset := rfl
@[simp] theorem State.noteRead_program (s : State) (w : Word) : (s.noteRead w).program = s.program := rfl
@[simp] theorem State.noteRead_reads (s : State) (w : Word) : (s.noteRead w).reads = w :: s.reads := rfl
@[simp] theorem State.noteRead_turns (s : State) (w : Word) : (s.noteRead w).turns = s.turns := rfl

/-! ### `State.issueFirst` -/

@[simp] theorem State.issueFirst_params (s : State) (ops : List HostOp) : (s.issueFirst ops).params = s.params := rfl
@[simp] theorem State.issueFirst_len (s : State) (ops : List HostOp) : (s.issueFirst ops).len = s.len := rfl
@[simp] theorem State.issueFirst_outlen (s : State) (ops : List HostOp) : (s.issueFirst ops).outlen = s.outlen := rfl
@[simp] theorem State.issueFirst_key (s : State) (ops : List HostOp) : (s.issueFirst ops).key = s.key := rfl
@[simp] theorem State.issueFirst_busy (s : State) (ops : List HostOp) : (s.issueFirst ops).busy = s.busy := rfl
@[simp] theorem State.issueFirst_done (s : State) (ops : List HostOp) : (s.issueFirst ops).done = s.done := rfl
@[simp] theorem State.issueFirst_err (s : State) (ops : List HostOp) : (s.issueFirst ops).err = s.err := rfl
@[simp] theorem State.issueFirst_data (s : State) (ops : List HostOp) : (s.issueFirst ops).data = s.data := rfl
@[simp] theorem State.issueFirst_dataEpoch (s : State) (ops : List HostOp) : (s.issueFirst ops).dataEpoch = s.dataEpoch := rfl
@[simp] theorem State.issueFirst_busyReads (s : State) (ops : List HostOp) : (s.issueFirst ops).busyReads = s.busyReads := rfl
@[simp] theorem State.issueFirst_pending (s : State) (ops : List HostOp) : (s.issueFirst ops).pending = s.pending := rfl
@[simp] theorem State.issueFirst_inReset (s : State) (ops : List HostOp) : (s.issueFirst ops).inReset = s.inReset := rfl
@[simp] theorem State.issueFirst_program (s : State) (ops : List HostOp) : (s.issueFirst ops).program = ops ++ s.program := rfl
@[simp] theorem State.issueFirst_reads (s : State) (ops : List HostOp) : (s.issueFirst ops).reads = s.reads := rfl
@[simp] theorem State.issueFirst_turns (s : State) (ops : List HostOp) : (s.issueFirst ops).turns = s.turns := rfl

/-! ### `State.giveCommand` -/

@[simp] theorem State.giveCommand_params (s : State) (c : Word) : (s.giveCommand c).params = s.params := rfl
@[simp] theorem State.giveCommand_len (s : State) (c : Word) : (s.giveCommand c).len = s.len := rfl
@[simp] theorem State.giveCommand_outlen (s : State) (c : Word) : (s.giveCommand c).outlen = s.outlen := rfl
@[simp] theorem State.giveCommand_key (s : State) (c : Word) : (s.giveCommand c).key = s.key := rfl
@[simp] theorem State.giveCommand_busy (s : State) (c : Word) : (s.giveCommand c).busy = s.busy := rfl
@[simp] theorem State.giveCommand_done (s : State) (c : Word) : (s.giveCommand c).done = s.done := rfl
@[simp] theorem State.giveCommand_err (s : State) (c : Word) : (s.giveCommand c).err = s.err := rfl
@[simp] theorem State.giveCommand_data (s : State) (c : Word) : (s.giveCommand c).data = s.data := rfl
@[simp] theorem State.giveCommand_dataEpoch (s : State) (c : Word) : (s.giveCommand c).dataEpoch = s.dataEpoch := rfl
@[simp] theorem State.giveCommand_busyReads (s : State) (c : Word) : (s.giveCommand c).busyReads = s.busyReads := rfl
@[simp] theorem State.giveCommand_pending (s : State) (c : Word) : (s.giveCommand c).pending = s.pending := rfl
@[simp] theorem State.giveCommand_inReset (s : State) (c : Word) : (s.giveCommand c).inReset = s.inReset := rfl
@[simp] theorem State.giveCommand_program (s : State) (c : Word) : (s.giveCommand c).program = .write (Reg.offset .cmd) c :: s.program := rfl
@[simp] theorem State.giveCommand_reads (s : State) (c : Word) : (s.giveCommand c).reads = s.reads := rfl
@[simp] theorem State.giveCommand_turns (s : State) (c : Word) : (s.giveCommand c).turns = .host :: s.turns := rfl

/-! ### `State.reset` -/

@[simp] theorem State.reset_params : State.reset.params = Config.params := rfl
@[simp] theorem State.reset_len : State.reset.len = 0#32 := rfl
@[simp] theorem State.reset_outlen : State.reset.outlen = 0#32 := rfl
@[simp] theorem State.reset_key : State.reset.key = { k0 := 0#32, k1 := 0#32, k2 := 0#32, k3 := 0#32 } := rfl
@[simp] theorem State.reset_busy : State.reset.busy = false := rfl
@[simp] theorem State.reset_done : State.reset.done = false := rfl
@[simp] theorem State.reset_err : State.reset.err = .none := rfl
@[simp] theorem State.reset_data : State.reset.data = [] := rfl
@[simp] theorem State.reset_dataEpoch : State.reset.dataEpoch = 0 := rfl
@[simp] theorem State.reset_busyReads : State.reset.busyReads = 0 := rfl
@[simp] theorem State.reset_pending : State.reset.pending = none := rfl
@[simp] theorem State.reset_inReset : State.reset.inReset = false := rfl
@[simp] theorem State.reset_program : State.reset.program = [] := rfl
@[simp] theorem State.reset_reads : State.reset.reads = [] := rfl
@[simp] theorem State.reset_turns : State.reset.turns = [] := rfl

end Sys2Proof.Machine
end

