-- ==== Sys2Proof/Laws/Codec.lean ====
section
/-! SUPPORT. WordCodec: the bits of a packed word, and the lengths of packed and unpacked sequences. -/

namespace Sys2Proof.Machine

/-- The bits of `le32`: each byte in its place (R51, R100). -/
theorem WordCodec.getLsbD_le32 (b0 b1 b2 b3 : Byte) (i : Nat) :
    (WordCodec.le32 b0 b1 b2 b3).getLsbD i =
      if i < 8 then b0.getLsbD i else if i < 16 then b1.getLsbD (i - 8)
      else if i < 24 then b2.getLsbD (i - 16) else b3.getLsbD (i - 24) := by
  have hge : ∀ (b : Byte) (j : Nat), 8 ≤ j → b.getLsbD j = false := fun b j h => BitVec.getLsbD_of_ge b j h
  simp only [WordCodec.le32, BitVec.getLsbD_or, BitVec.getLsbD_shiftLeft, BitVec.getLsbD_setWidth]
  by_cases h0 : i < 8
  · simp [h0, show i < 16 by omega, show i < 24 by omega, show i < 32 by omega]
  · by_cases h1 : i < 16
    · simp [h0, h1, show i < 24 by omega, show i < 32 by omega, hge b0 i (by omega), show i - 8 < 32 by omega]
    · by_cases h2 : i < 24
      · simp [h0, h1, h2, show i < 32 by omega, hge b0 i (by omega), hge b1 (i - 8) (by omega),
          show i - 16 < 32 by omega]
      · by_cases h3 : i < 32
        · simp [h0, h1, h2, h3, hge b0 i (by omega), hge b1 (i - 8) (by omega), hge b2 (i - 16) (by omega),
            show i - 24 < 32 by omega]
        · simp [h0, h1, h2, h3, hge b3 (i - 24) (by omega)]

/-- The bits of byte `j` of a word (R12). -/
theorem WordCodec.getLsbD_byteOf (w : Word) (j i : Nat) :
    (WordCodec.byteOf w j).getLsbD i = (decide (i < 8) && w.getLsbD (8 * j + i)) := by
  simp [WordCodec.byteOf, BitVec.getLsbD_extractLsb']

/-- A word has four bytes. -/
@[simp] theorem WordCodec.length_bytes32 (w : Word) : (WordCodec.bytes32 w).length = 4 := rfl

/-- The unpacked bytes of a sequence of words: four for each word. -/
@[simp] theorem WordCodec.length_unpack (ws : Words) : (WordCodec.unpack ws).length = 4 * ws.length := by
  induction ws with
  | nil => rfl
  | cons w ws ih => simp [WordCodec.unpack, ih]; omega

/-- Unpacking goes word by word. -/
theorem WordCodec.unpack_append (ws vs : Words) :
    WordCodec.unpack (ws ++ vs) = WordCodec.unpack ws ++ WordCodec.unpack vs := by
  induction ws with
  | nil => rfl
  | cons w ws ih => simp [WordCodec.unpack, ih]

/-- Padding goes up to the next multiple of 4 (R101). -/
theorem WordCodec.length_pad (b : Bytes) : (WordCodec.pad b).length = 4 * ((b.length + 3) / 4) := by
  simp only [WordCodec.pad, List.length_append, List.length_replicate]; omega

/-- Packing whole groups gives one word for each. -/
theorem WordCodec.length_packGroups (b : Bytes) : (WordCodec.packGroups b).length = b.length / 4 := by
  induction b using WordCodec.packGroups.induct with
  | case1 b0 b1 b2 b3 rest ih => simp only [WordCodec.packGroups, List.length_cons, ih]; omega
  | case2 b h =>
    match b, h with
    | [], _ => rfl
    | [_], _ => simp [WordCodec.packGroups]
    | [_, _], _ => simp [WordCodec.packGroups]
    | [_, _, _], _ => simp [WordCodec.packGroups]
    | b0 :: b1 :: b2 :: b3 :: r, h => exact absurd rfl (h b0 b1 b2 b3 r)

end Sys2Proof.Machine
end

