-- ==== Sys2Proof/Laws/Cipher.lean ====
section
/-! SUPPORT. CipherCore: every loop keeps the length of the buffer (R143, R160), and the two transforms' errors. -/

namespace Sys2Proof.Machine

/-- An inner update of encryption keeps the length. -/
@[simp] theorem CipherCore.length_encInner (k : Key) (sum e : Word) (p : Nat) (vz : Words × Word) :
    (CipherCore.encInner k sum e p vz).1.length = vz.1.length := by simp [CipherCore.encInner]

/-- A round of encryption keeps the length. -/
@[simp] theorem CipherCore.length_encRound (k : Key) (n : Nat) (sum : Word) (vz : Words × Word) :
    (CipherCore.encRound k n sum vz).1.length = vz.1.length := by
  have h : ∀ (l : List Nat) (e : Word) (a : Words × Word),
      (l.foldl (fun a p => CipherCore.encInner k sum e p a) a).1.length = a.1.length := by
    intro l e
    induction l with
    | nil => intro a; rfl
    | cons p l ih => intro a; simp [ih]
  simp [CipherCore.encRound, h]

/-- Any number of rounds of encryption keeps the length. -/
@[simp] theorem CipherCore.length_encRounds (k : Key) (n q : Nat) (sum : Word) (vz : Words × Word) :
    (CipherCore.encRounds k n q sum vz).1.length = vz.1.length := by
  induction q generalizing sum vz with
  | zero => rfl
  | succ q ih => simp [CipherCore.encRounds, ih]

/-- "The length of the result equals the length of v" (R143). -/
@[simp] theorem CipherCore.length_encWords (v : Words) (k : Key) : (CipherCore.encWords v k).length = v.length := by
  simp [CipherCore.encWords]

/-- An inner update of decryption keeps the length. -/
@[simp] theorem CipherCore.length_decInner (k : Key) (sum e : Word) (p : Nat) (vy : Words × Word) :
    (CipherCore.decInner k sum e p vy).1.length = vy.1.length := by simp [CipherCore.decInner]

/-- An iteration of decryption keeps the length. -/
@[simp] theorem CipherCore.length_decRound (k : Key) (n : Nat) (sum : Word) (vy : Words × Word) :
    (CipherCore.decRound k n sum vy).1.length = vy.1.length := by
  have h : ∀ (l : List Nat) (e : Word),
      (l.foldr (fun i a => CipherCore.decInner k sum e (i + 1) a) vy).1.length = vy.1.length := by
    intro l e
    induction l with
    | nil => rfl
    | cons p l ih => simp [ih]
  simp [CipherCore.decRound, h]

/-- The loop of decryption keeps the length. -/
@[simp] theorem CipherCore.length_decLoop (k : Key) (n fuel : Nat) (sum : Word) (vy : Words × Word) :
    (CipherCore.decLoop k n fuel sum vy).2.1.length = vy.1.length := by
  induction fuel generalizing sum vy with
  | zero => rfl
  | succ f ih => simp only [CipherCore.decLoop]; split <;> simp [ih]

/-- "The length of the result equals the length of v" (R160). -/
@[simp] theorem CipherCore.length_decWords (v : Words) (k : Key) : (CipherCore.decWords v k).length = v.length := by
  simp [CipherCore.decWords]

/-- What `encode` with truncation answers: no words, a sentinel out of range, or the first `m` bytes (R106, R107). -/
theorem WordCodec.encode_true_cases (ws : Words) :
    (ws = [] ∧ WordCodec.encode ws true = .error .noWords) ∨
      ∃ m, ws.getLast? = some m ∧
        ((WordCodec.sentinelInRange ws.length m = true ∧
            WordCodec.encode ws true = .ok ((WordCodec.unpack ws).take m.toNat)) ∨
          (WordCodec.sentinelInRange ws.length m = false ∧ WordCodec.encode ws true = .error .malformedCiphertext)) := by
  cases h : ws.getLast? with
  | none => left; exact ⟨List.getLast?_eq_none_iff.1 h, by simp [WordCodec.encode, h]⟩
  | some m =>
    right; refine ⟨m, rfl, ?_⟩
    cases hr : WordCodec.sentinelInRange ws.length m <;> simp [WordCodec.encode, h, hr]

/-- Decoding four bytes or more gives a word or more (R107). -/
theorem WordCodec.decode_ne_nil {b : Bytes} (h : 1 ≤ b.length) (l : Bool) : WordCodec.decode b l ≠ [] := by
  have h1 : (WordCodec.packGroups (WordCodec.pad b)).length ≠ 0 := by
    rw [WordCodec.length_packGroups, WordCodec.length_pad]; omega
  intro hd
  have : (WordCodec.decode b l).length = 0 := by rw [hd]; rfl
  cases l <;> simp [WordCodec.decode] at this
  exact h1 (by simp [this])

/-- `decrypt` never applies `encode` with truncation to no words (R107, N1). -/
theorem CipherCore.decrypt_ne_noWords (ct : Bytes) (k : Key) : CipherCore.decrypt ct k ≠ .error .noWords := by
  unfold CipherCore.decrypt
  split
  · simp
  · split
    · simp
    · rename_i h0 h4
      rcases WordCodec.encode_true_cases (CipherCore.decWords (WordCodec.decode ct false) k) with h | ⟨m, -, h⟩
      · have hl := congrArg List.length h.1
        simp only [CipherCore.length_decWords, List.length_nil] at hl
        exact absurd (List.length_eq_zero_iff.1 hl) (WordCodec.decode_ne_nil (by omega) false)
      · rcases h with h | h <;> simp [h.2]

/-! ### The working state -/

/-- The 32 bits of `n` hold it exactly (R31). -/
theorem CipherCore.toNat_lastIndex {v : Words} (h : v.length ≤ 2 ^ 32) :
    (CipherCore.lastIndex v).toNat = v.length - 1 := by
  rw [CipherCore.lastIndex, BitVec.toNat_ofNat]; omega

/-- The 32 bits of `q` hold it exactly (R31, R141). -/
theorem CipherCore.toNat_roundCount (v : Words) :
    (CipherCore.roundCount v).toNat = CipherCore.rounds (v.length - 1) := by
  have : 52 / (v.length - 1 + 1) ≤ 52 := Nat.div_le_self _ _
  rw [CipherCore.roundCount, BitVec.toNat_ofNat]
  exact Nat.mod_eq_of_lt (by rw [CipherCore.rounds]; omega)

/-- A mix evaluation of an encryption keeps `n`, `q` and the number of words (R147). -/
@[simp] theorem CipherCore.encMix_shape (k : Key) (w : Work) :
    (CipherCore.encMix k w).n = w.n ∧ (CipherCore.encMix k w).q = w.q ∧ (CipherCore.encMix k w).v.length = w.v.length := by
  unfold CipherCore.encMix; split <;> simp

/-- A mix evaluation of a decryption keeps `n`, `q` and the number of words (R166). -/
@[simp] theorem CipherCore.decMix_shape (k : Key) (w : Work) :
    (CipherCore.decMix k w).n = w.n ∧ (CipherCore.decMix k w).q = w.q ∧ (CipherCore.decMix k w).v.length = w.v.length := by
  unfold CipherCore.decMix; split <;> simp

end Sys2Proof.Machine
end

