-- ==== Sys2Proof/Laws/Memory.lean ====
section
/-! SUPPORT. The message buffer: reading after writing, and the canonical form that every memory operation keeps. -/

namespace Sys2Proof.Machine

/-! ### Reading after writing -/

/-- One write: its offset then reads as the byte written, every other offset as before. -/
theorem Memory.lookup_write (m : List Host.Cell) (a : Nat) (b : Byte) (c : Nat) :
    Memory.lookup (Memory.write m a b) c = if c = a then some b else Memory.lookup m c := by
  induction m with
  | nil => simp [Memory.write, Memory.lookup, eq_comm]
  | cons d m ih =>
    simp only [Memory.write]
    split
    · simp [Memory.lookup, eq_comm]
    · split
      · rename_i h; subst h; simp only [Memory.lookup]; by_cases h : c = d.1 <;> simp [h, eq_comm]
      · simp only [Memory.lookup, ih]
        by_cases h : d.1 = c
        · subst h; simp; intro h; omega
        · simp [h]

/-- Consecutive writes: each offset written reads as its byte, every other offset as before. -/
theorem Memory.lookup_writeBytes (bs : Bytes) (m : List Host.Cell) (a c : Nat) :
    Memory.lookup (Memory.writeBytes m a bs) c =
      if a ≤ c ∧ c < a + bs.length then bs[c - a]? else Memory.lookup m c := by
  induction bs generalizing m a with
  | nil => simp [Memory.writeBytes]
  | cons b bs ih =>
    simp only [Memory.writeBytes, ih, Memory.lookup_write, List.length_cons]
    by_cases h : c = a
    · subst h; simp
    · by_cases h1 : a + 1 ≤ c ∧ c < a + 1 + bs.length
      · rw [if_pos h1, if_pos (by omega), show c - a = (c - (a + 1)) + 1 by omega]; simp
      · rw [if_neg h1, if_neg h, if_neg (by omega)]

/-! ### The canonical form -/

/-- The tail of a memory in canonical form is in canonical form. -/
theorem Memory.wf_tail {c : Host.Cell} {m : List Host.Cell} (h : Memory.wf (c :: m) = true) : Memory.wf m = true := by
  cases m with
  | nil => rfl
  | cons d m => simp only [Memory.wf, Bool.and_eq_true] at h; exact h.2

/-- In canonical form no offset of the tail is below the head's, or equal to it. -/
theorem Memory.wf_cons_iff (c : Host.Cell) (m : List Host.Cell) :
    Memory.wf (c :: m) = true ↔ (∀ d ∈ m, c.1 < d.1) ∧ Memory.wf m = true := by
  induction m generalizing c with
  | nil => simp [Memory.wf]
  | cons d m ih =>
    simp only [Memory.wf, Bool.and_eq_true, decide_eq_true_eq, List.mem_cons, forall_eq_or_imp]
    constructor
    · rintro ⟨h1, h2⟩
      exact ⟨⟨h1, fun x hx => lt_trans h1 (((ih d).1 h2).1 x hx)⟩, h2⟩
    · rintro ⟨⟨h1, -⟩, h2⟩; exact ⟨h1, h2⟩

/-- A write lists no offset but its own and those listed before. -/
theorem Memory.mem_write {m : List Host.Cell} {a : Nat} {b : Byte} {c : Host.Cell} (h : c ∈ Memory.write m a b) :
    c = (a, b) ∨ c ∈ m := by
  induction m with
  | nil => simpa [Memory.write] using h
  | cons d m ih =>
    simp only [Memory.write] at h
    split at h
    · simpa using h
    · split at h
      · simp only [List.mem_cons] at h ⊢; tauto
      · simp only [List.mem_cons] at h ⊢
        rcases h with h | h
        · tauto
        · have := ih h; tauto

/-- A write keeps the canonical form. -/
theorem Memory.wf_write {m : List Host.Cell} (a : Nat) (b : Byte) (h : Memory.wf m = true) :
    Memory.wf (Memory.write m a b) = true := by
  induction m with
  | nil => rfl
  | cons d m ih =>
    have hd := (Memory.wf_cons_iff d m).1 h
    simp only [Memory.write]
    split
    · rename_i ha
      rw [Memory.wf_cons_iff]
      refine ⟨fun x hx => ?_, h⟩
      rcases List.mem_cons.1 hx with rfl | hx
      · exact ha
      · exact lt_trans ha (hd.1 x hx)
    · split
      · rename_i ha; subst ha; rw [Memory.wf_cons_iff]; exact hd
      · rw [Memory.wf_cons_iff]
        refine ⟨fun x hx => ?_, ih hd.2⟩
        rcases Memory.mem_write hx with rfl | hx
        · show d.1 < a; omega
        · exact hd.1 x hx

/-- Consecutive writes keep the canonical form. -/
theorem Memory.wf_writeBytes (bs : Bytes) {m : List Host.Cell} (a : Nat) (h : Memory.wf m = true) :
    Memory.wf (Memory.writeBytes m a bs) = true := by
  induction bs generalizing m a with
  | nil => exact h
  | cons b bs ih => exact ih _ (Memory.wf_write a b h)

/-- Consecutive writes list no offset but those written and those listed before. -/
theorem Memory.mem_writeBytes (bs : Bytes) {m : List Host.Cell} {a : Nat} {c : Host.Cell}
    (h : c ∈ Memory.writeBytes m a bs) : (a ≤ c.1 ∧ c.1 < a + bs.length) ∨ c ∈ m := by
  induction bs generalizing m a with
  | nil => exact .inr h
  | cons b bs ih =>
    rcases ih h with h | h
    · left; simp only [List.length_cons]; omega
    · rcases Memory.mem_write h with rfl | h
      · left; simp
      · exact .inr h

/-- Every operation that changes DATA keeps its canonical form. -/
theorem State.wf_memWrite {s : State} (a : Nat) (b : Bytes) (h : Memory.wf s.data = true) :
    Memory.wf (s.memWrite a b).data = true := Memory.wf_writeBytes b a h

/-- The memory after reset, and after DATA has become unspecified, is in canonical form. -/
theorem Memory.wf_reset : Memory.wf State.reset.data = true := rfl

/-! ### The byte view -/

/-- `MemWrite` then one byte read (R52). -/
theorem State.byteAt_memWrite (s : State) (a : Nat) (b : Bytes) (c : Nat) :
    (s.memWrite a b).byteAt c = if a ≤ c ∧ c < a + b.length then b.getD (c - a) 0#8 else s.byteAt c := by
  simp only [State.byteAt, State.memWrite_data, State.memWrite_dataEpoch, Memory.lookup_writeBytes]
  by_cases h : a ≤ c ∧ c < a + b.length
  · have h2 : c - a < b.length := by omega
    simp [if_pos h, List.getElem?_eq_getElem h2, List.getD_eq_getElem?_getD]
  · simp [if_neg h]

/-- Reading depends on DATA and its epoch alone. -/
theorem State.byteAt_congr {s t : State} (hd : t.data = s.data) (he : t.dataEpoch = s.dataEpoch) (a : Nat) :
    t.byteAt a = s.byteAt a := by simp [State.byteAt, hd, he]

/-- `MemRead` depends on DATA and its epoch alone. -/
theorem State.memRead_congr {s t : State} (hd : t.data = s.data) (he : t.dataEpoch = s.dataEpoch) (a n : Nat) :
    t.memRead a n = s.memRead a n := by simp [State.memRead, State.byteAt_congr hd he]

/-- `MemRead` gives as many bytes as it is asked for. -/
@[simp] theorem State.length_memRead (s : State) (a n : Nat) : (s.memRead a n).length = n := by simp [State.memRead]

/-- The j-th byte of `MemRead`. -/
theorem State.getElem?_memRead (s : State) (a n j : Nat) :
    (s.memRead a n)[j]? = if j < n then some (s.byteAt (a + j)) else none := by
  simp only [State.memRead, List.getElem?_map]
  split
  · rename_i h; simp [List.getElem?_range h]
  · rename_i h; simp; omega

/-- `MemWrite` then `MemRead` of the same bytes (R52). -/
theorem State.memRead_memWrite (s : State) (a : Nat) (b : Bytes) : (s.memWrite a b).memRead a b.length = b := by
  apply List.ext_getElem?
  intro j
  rw [State.getElem?_memRead]
  split
  · rename_i h; rw [State.byteAt_memWrite, if_pos (by omega)]
    simp [List.getElem?_eq_getElem h, List.getD_eq_getElem?_getD]
  · rename_i h; simp at h; simp [List.getElem?_eq_none h]

/-- After a published result, a byte of the result reads as published and every other byte is a new draw (R34). -/
theorem State.byteAt_publish (s : State) (b : Bytes) (c : Nat) :
    (s.publish b).byteAt c = if c < b.length then b.getD c 0#8 else Config.freeDataByte (s.dataEpoch + 1) c := by
  have h : (s.publish b).byteAt c = (s.forgetData.memWrite 0 b).byteAt c := rfl
  rw [h, State.byteAt_memWrite]
  simp [State.byteAt, State.forgetData, Memory.lookup]

/-- The published result is what `MemRead` gives (R34). -/
theorem State.memRead_publish (s : State) (b : Bytes) : (s.publish b).memRead 0 b.length = b :=
  State.memRead_memWrite s.forgetData 0 b

end Sys2Proof.Machine
end

