-- ==== Sys2Proof/Laws/Ops.lean ====
section
/-! SUPPORT. One lemma for each shared operation that says all it can do: acceptance, the two accept steps, completion,
a bus write, a bus read, a host operation, a turn, a step. -/

namespace Sys2Proof.Machine

/-! ### STATUS -/

/-- STATUS from the values of its fields (R24). -/
theorem State.statusWord_eq {s : State} {b d : Bool} {e : ErrCode} (hb : s.busy = b) (hd : s.done = d) (he : s.err = e) :
    s.statusWord = statusOf b d e := by rw [State.statusWord, hb, hd, he]

/-- The values of STATUS that occur (R24, R200). -/
theorem statusOf_values :
    statusOf false false .none = 0#32 ∧ statusOf true false .none = 1#32 ∧ statusOf false true .none = 2#32 ∧
      statusOf false true .malformed = 0x12#32 ∧ statusOf false true .illegalCmd = 0x22#32 ∧
      statusOf false true .capacity = 0x32#32 := by decide

/-! ### Acceptance -/

/-- Acceptance runs the accept step on an idle CORE and is ignored otherwise (R33, R35, R240). -/
theorem State.acceptWith_cases (accept : State → State) (s : State) :
    (s.busy = false ∧ s.inReset = false ∧ s.acceptWith accept = accept s.clearResult) ∨
      ((s.busy = true ∨ s.inReset = true) ∧ s.acceptWith accept = s) := by
  cases hb : s.busy <;> cases hr : s.inReset <;> simp [State.acceptWith, State.takesCommand, hb, hr]

/-- The ends of ENCRYPT's accept step (R145). -/
theorem acceptEncrypt_cases (s : State) :
    (4 * (s.params.maxWords - 1) < s.len.toNat ∧ acceptEncrypt s = s.finishNow .capacity) ∨
      (s.len = 0#32 ∧ acceptEncrypt s = s.finishEmpty) ∨
      (s.len.toNat ≤ 4 * (s.params.maxWords - 1) ∧ s.len ≠ 0#32 ∧
        acceptEncrypt s = s.startCommand .encrypt (CipherCore.encStart (s.encryptWords s.len))) := by
  by_cases hc : s.params.encryptLimit < s.len.toNat
  · exact .inl ⟨hc, by rw [acceptEncrypt, if_pos hc]⟩
  · by_cases h0 : s.len = 0#32
    · exact .inr (.inl ⟨h0, by rw [acceptEncrypt, if_neg hc, if_pos h0]⟩)
    · exact .inr (.inr ⟨not_lt.1 hc, h0, by rw [acceptEncrypt, if_neg hc, if_neg h0]⟩)

/-- The ends of DECRYPT's accept step (R163). -/
theorem acceptDecrypt_cases (s : State) :
    (4 * s.params.maxWords < s.len.toNat ∧ acceptDecrypt s = s.finishNow .capacity) ∨
      (s.len = 0#32 ∧ acceptDecrypt s = s.finishEmpty) ∨
      (s.len.toNat ≤ 4 * s.params.maxWords ∧ s.len ≠ 0#32 ∧ s.len.toNat < 4 ∧
        acceptDecrypt s = s.finishNow .malformed) ∨
      (4 ≤ s.len.toNat ∧ s.len.toNat ≤ 4 * s.params.maxWords ∧
        acceptDecrypt s = s.startCommand .decrypt (CipherCore.decStart (s.decryptWords s.len))) := by
  by_cases hc : s.params.decryptLimit < s.len.toNat
  · exact .inl ⟨hc, by rw [acceptDecrypt, if_pos hc]⟩
  · by_cases h0 : s.len = 0#32
    · exact .inr (.inl ⟨h0, by rw [acceptDecrypt, if_neg hc, if_pos h0]⟩)
    · by_cases h4 : s.len.toNat < 4
      · exact .inr (.inr (.inl ⟨not_lt.1 hc, h0, h4, by rw [acceptDecrypt, if_neg hc, if_neg h0, if_pos h4]⟩))
      · exact .inr (.inr (.inr ⟨not_lt.1 h4, not_lt.1 hc, by rw [acceptDecrypt, if_neg hc, if_neg h0, if_neg h4]⟩))

/-! ### Completion -/

/-- A completion publishes a result or MALFORMED, and never stops (R34). -/
theorem completePending_cases (p : Pending) (s : State) :
    (p.cmd = .encrypt ∧
        completePending p s = .next (s.publish (CipherCore.encrypt (s.inputBytes p.len) s.key))) ∨
      (p.cmd = .decrypt ∧ ∃ b, CipherCore.decrypt (s.inputBytes p.len) s.key = .ok b ∧
        completePending p s = .next (s.publish b)) ∨
      (p.cmd = .decrypt ∧ CipherCore.decrypt (s.inputBytes p.len) s.key = .error .malformedCiphertext ∧
        completePending p s = .next s.publishMalformed) := by
  obtain ⟨c, l, w⟩ := p
  cases c with
  | encrypt => exact .inl ⟨rfl, rfl⟩
  | decrypt =>
    have hn := CipherCore.decrypt_ne_noWords (s.inputBytes l) s.key
    have hc : completePending ⟨.decrypt, l, w⟩ s = completeDecrypt ⟨.decrypt, l, w⟩ s := rfl
    rw [hc, completeDecrypt]
    simp only [State.keyOperand]
    cases hd : CipherCore.decrypt (s.inputBytes l) s.key with
    | ok b => right; left; simp
    | error e =>
      cases e with
      | malformedCiphertext => right; right; simp
      | noWords => exact absurd hd hn

/-- The core sequencer's turn: a completion of the pending operation, or nothing (R34, R247). -/
theorem coreTurn_cases (s : State) :
    (∃ p, s.busy = true ∧ s.pending = some p ∧ coreTurn s = completePending p s) ∨
      ((s.busy = false ∨ s.pending = none) ∧ coreTurn s = .next s) := by
  unfold coreTurn
  cases s.busy <;> cases s.pending <;> simp

/-- A mix evaluation changes the pending operation's working state, or nothing (R31). -/
theorem mixTurn_cases (s : State) :
    (∃ p, s.busy = true ∧ s.pending = some p ∧
        mixTurn s = { s with pending := some { p with work := mixOnce p.cmd s.key p.work } }) ∨
      ((s.busy = false ∨ s.pending = none) ∧ mixTurn s = s) := by
  by_cases hb : s.busy = true
  · cases hp : s.pending with
    | none => exact .inr ⟨.inr rfl, by simp [mixTurn, hp]⟩
    | some p =>
      refine .inl ⟨p, hb, rfl, ?_⟩
      rw [mixTurn, if_pos hb, hp]
      obtain ⟨c, l, w⟩ := p
      cases c <;> rfl
  · exact .inr ⟨.inl (by simpa using hb), by rw [mixTurn, if_neg hb]⟩

/-! ### Bus transactions -/

/-- A bus write stops on an offset R54 or R30 leaves out, and otherwise is the write of a register. -/
theorem busWrite_cases (offset : Nat) (w : Word) (s : State) :
    (∃ r, decodeOffset s.params offset = .reg r ∧ busWrite offset w s = writeReg r w s) ∨
      (decodeOffset s.params offset = .misaligned ∧ busWrite offset w s = .fault .busMisaligned) ∨
      (decodeOffset s.params offset = .outside ∧ busWrite offset w s = .refused .outsideBlock) := by
  unfold busWrite
  cases h : decodeOffset s.params offset <;> simp

/-- A write of a register changes nothing, is a command word given to CMD, or stores into LEN, KEYj or DATA[i] (R35, R36,
R240). -/
theorem writeReg_cases (r : Reg) (w : Word) (s : State) :
    writeReg r w s = .next s ∨
      (s.busy = false ∧ s.inReset = false ∧
        ((r = .cmd ∧ writeReg r w s = writeCommand w s) ∨ (r = .len ∧ writeReg r w s = .next (s.writeLen w)) ∨
          (∃ j, r = .key j ∧ writeReg r w s = .next (s.writeKey j w)) ∨
          (∃ i, r = .data i ∧ writeReg r w s = .next (s.writeDataWord i w)))) := by
  unfold writeReg
  cases hb : s.busy <;> cases hr : s.inReset <;> cases r <;> simp

/-- A command word given to CMD is acceptance of the command it encodes, or of an illegal word (R33). -/
theorem writeCommand_cases (c : Word) (s : State) :
    writeCommand c s = .next (s.acceptWith acceptEncrypt) ∨ writeCommand c s = .next (s.acceptWith acceptDecrypt) ∨
      writeCommand c s = .next (s.acceptWith (State.finishNow .illegalCmd)) := by
  unfold writeCommand
  cases decodeCommand c with
  | error e => exact .inr (.inr rfl)
  | ok i => cases i <;> simp [exec, execEncrypt, execDecrypt]

/-- A bus read stops on an offset R54 or R30 leaves out, and otherwise changes only what the host makes of the value and
the model's count of draws (R55). -/
theorem busRead_cases (offset : Nat) (use : Word → State → State) (s : State) :
    (∃ r, decodeOffset s.params offset = .reg r ∧
        busRead offset use s = .next (use (s.readValue r) ((s.afterRead r).noteRead (s.readValue r)))) ∨
      (decodeOffset s.params offset = .misaligned ∧ busRead offset use s = .fault .busMisaligned) ∨
      (decodeOffset s.params offset = .outside ∧ busRead offset use s = .refused .outsideBlock) := by
  unfold busRead
  cases h : decodeOffset s.params offset <;> simp

/-- A well-formed offset selects a register (R22, R54). -/
theorem decodeOffset_of_wellFormed {c : Params} {offset : Nat} (h : offsetWellFormed c offset = true) :
    ∃ r, decodeOffset c offset = .reg r := by
  simp only [offsetWellFormed, Bool.and_eq_true, decide_eq_true_eq] at h
  unfold decodeOffset
  split
  · repeat' (split; first | omega | exact ⟨_, rfl⟩)
    exact ⟨_, rfl⟩
  · rw [if_neg (by omega), if_neg (by omega)]; exact ⟨_, rfl⟩

/-- DATA[i] is selected only below MAX_WORDS, and CMD only by offset 0 (R22). -/
theorem decodeOffset_reg {c : Params} {offset : Nat} {r : Reg} (h : decodeOffset c offset = .reg r) :
    (∀ i, r = .data i → i < c.maxWords ∧ offset = 0x100 + 4 * i) ∧ (r = .cmd → offset = 0) := by
  unfold decodeOffset at h
  split at h
  · repeat' (split at h <;> [(first | (cases h; done) | (cases h; simp_all; done)); skip])
    cases h; simp
  · split at h
    · cases h
    · split at h
      · cases h
      · cases h; refine ⟨fun i hi => ?_, by simp⟩; cases hi; omega

/-! ### Turns and steps -/

/-- The host's turn: nothing, or the first operation of its program (R59). -/
theorem hostTurn_cases (s : State) :
    (s.program = [] ∧ hostTurn s = .next s) ∨
      ∃ op ops, s.program = op :: ops ∧ hostTurn s = runHostOp op { s with program := ops } := by
  unfold hostTurn
  cases s.program with
  | nil => simp
  | cons op ops => exact .inr ⟨op, ops, rfl, rfl⟩

/-- A step is the turn that is due, with that turn used up (R19, R59). -/
theorem step_cases (s : State) :
    (s.turns = [] ∧ s.busy = true ∧ step s = coreTurn s) ∨ (s.turns = [] ∧ s.busy = false ∧ step s = hostTurn s) ∨
      ∃ u us, s.turns = u :: us ∧ step s = takeTurn u { s with turns := us } := by
  unfold step nextTurn
  cases h : s.turns with
  | nil =>
    cases hb : s.busy
    · right; left; simp [State.defaultTurn, hb, takeTurn]
    · left; simp [State.defaultTurn, hb, takeTurn]
  | cons u us => right; right; exact ⟨u, us, rfl, rfl⟩

end Sys2Proof.Machine
end

