-- ==== Sys2Proof/Laws/PerInstr.lean ====
section
/-! SUPPORT. Statements about every instruction as syntax, one lemma per constructor of `Instr` (LAWS.json names each
family). -/

namespace Sys2Proof.Laws

/-- The word of a command has RSVD 0 and decodes, from the word and from its four bus bytes, to that command, which is
well formed (R70, R71, R72). -/
def CommandWord.Statement (i : Instr) : Prop :=
  i.wellFormed = true ∧ rsvdField (encode i) = 0#28 ∧ decodeCommand (encode i) = .ok i ∧
    decodeBytes (encodeBytes i) = .ok (i, [])

/-- ENCRYPT, 0x00000001. -/
theorem CommandWord.encrypt : CommandWord.Statement .encrypt := by
  unfold CommandWord.Statement; decide

/-- DECRYPT, 0x00000002. -/
theorem CommandWord.decrypt : CommandWord.Statement .decrypt := by
  unfold CommandWord.Statement; decide

end Sys2Proof.Laws
end

