-- ==== Sys2Proof/Laws/Step.lean ====
section
/-! SUPPORT. What a whole step can do, said once: `StepEffect` lists it and `step_effect` says that nothing else happens. -/

namespace Sys2Proof.Machine

/-- Two states of one CORE: they differ at most in the host's side, in the turns and in the count of draws. -/
def State.sameCore (s t : State) : Prop :=
  t = { s with program := t.program, reads := t.reads, turns := t.turns, busyReads := t.busyReads }

/-- What a step can make of CORE. In each case `u` is the state the step works on: `s` with the turn and the host
operation used up. -/
inductive StepEffect (s : State) : State → Prop
  /-- CORE is as it was. -/
  | unchanged (t : State) (h : s.sameCore t) : StepEffect s t
  /-- A command word is accepted (R33). -/
  | accepted (accept : State → State)
      (which : accept = acceptEncrypt ∨ accept = acceptDecrypt ∨ accept = State.finishNow .illegalCmd)
      (idle : s.busy = false ∧ s.inReset = false) (u : State) (h : s.sameCore u) : StepEffect s (accept u.clearResult)
  /-- LEN is written (R36). -/
  | lenWritten (w : Word) (idle : s.busy = false ∧ s.inReset = false) (u : State) (h : s.sameCore u) :
      StepEffect s (u.writeLen w)
  /-- KEYj is written (R36). -/
  | keyWritten (j : Fin 4) (w : Word) (idle : s.busy = false ∧ s.inReset = false) (u : State) (h : s.sameCore u) :
      StepEffect s (u.writeKey j w)
  /-- DATA[i] is written (R36). -/
  | dataWritten (i : Nat) (w : Word) (inBuffer : i < s.params.maxWords) (idle : s.busy = false ∧ s.inReset = false)
      (u : State) (h : s.sameCore u) : StepEffect s (u.writeDataWord i w)
  /-- The pending operation completes (R34). -/
  | completed (p : Pending) (busy : s.busy = true) (pending : s.pending = some p) (u : State) (h : s.sameCore u)
      (t : State) (ht : completePending p u = .next t) : StepEffect s t
  /-- The working state goes on by one mix evaluation (R31). -/
  | mixed (p : Pending) (busy : s.busy = true) (pending : s.pending = some p) (u : State) (h : s.sameCore u) :
      StepEffect s { u with pending := some { p with work := mixOnce p.cmd s.key p.work } }
  /-- Reset is asserted (R240). -/
  | resetAsserted (u : State) (h : s.sameCore u) : StepEffect s u.assertReset
  /-- Reset is released (R240). -/
  | resetReleased (inReset : s.inReset = true) (u : State) (h : s.sameCore u) :
      StepEffect s { u.clearAll with inReset := false }

/-- A bus write stores into a register, gives a command word, or changes nothing (R35, R36). -/
theorem busWrite_effect {s u t : State} (hu : s.sameCore u) (offset : Nat) (w : Word) (h : busWrite offset w u = .next t) :
    StepEffect s t := by
  have hb : u.busy = s.busy := by rw [hu]
  have hr : u.inReset = s.inReset := by rw [hu]
  have hc : u.params = s.params := by rw [hu]
  rcases busWrite_cases offset w u with ⟨r, ho, h2⟩ | ⟨-, h2⟩ | ⟨-, h2⟩ <;> rw [h2] at h
  · rcases writeReg_cases r w u with h3 | ⟨hb', hr', ⟨-, h3⟩ | ⟨-, h3⟩ | ⟨j, -, h3⟩ | ⟨i, hi, h3⟩⟩ <;> rw [h3] at h
    · cases h; exact .unchanged _ hu
    · have acc : ∀ f : State → State, u.acceptWith f = f u.clearResult := by
        intro f
        rcases State.acceptWith_cases f u with ⟨-, -, h5⟩ | ⟨h5, -⟩
        · exact h5
        · simp [hb', hr'] at h5
      have hi : s.busy = false ∧ s.inReset = false := ⟨hb ▸ hb', hr ▸ hr'⟩
      rcases writeCommand_cases w u with h4 | h4 | h4 <;> rw [h4] at h <;> cases h <;> rw [acc]
      · exact .accepted _ (.inl rfl) hi u hu
      · exact .accepted _ (.inr (.inl rfl)) hi u hu
      · exact .accepted _ (.inr (.inr rfl)) hi u hu
    · cases h; exact .lenWritten w ⟨hb ▸ hb', hr ▸ hr'⟩ u hu
    · cases h; exact .keyWritten j w ⟨hb ▸ hb', hr ▸ hr'⟩ u hu
    · cases h; exact .dataWritten i w (hc ▸ ((decodeOffset_reg ho).1 i hi).1) ⟨hb ▸ hb', hr ▸ hr'⟩ u hu
  · cases h
  · cases h

/-- A bus read changes no register (R55). -/
theorem busRead_effect {s u t : State} (hu : s.sameCore u) (offset : Nat) (use : Word → State → State)
    (huse : ∀ w v, s.sameCore v → s.sameCore (use w v)) (h : busRead offset use u = .next t) : StepEffect s t := by
  rcases busRead_cases offset use u with ⟨r, -, h2⟩ | ⟨-, h2⟩ | ⟨-, h2⟩ <;> rw [h2] at h <;> cases h
  refine .unchanged _ (huse _ _ ?_)
  unfold State.sameCore at *
  rw [hu]; rfl

/-- The host's turn (R59, R75). -/
theorem hostTurn_effect {s u t : State} (hu : s.sameCore u) (h : hostTurn u = .next t) : StepEffect s t := by
  rcases hostTurn_cases u with ⟨-, h2⟩ | ⟨op, ops, -, h2⟩ <;> rw [h2] at h
  · cases h; exact .unchanged _ hu
  · have hv : s.sameCore { u with program := ops } := by unfold State.sameCore at *; rw [hu]
    have issue : ∀ more v, s.sameCore v → s.sameCore (v.issueFirst more) := by
      intro more v hv; unfold State.sameCore at *; rw [hv]; rfl
    cases op with
    | write offset w => exact busWrite_effect hv offset w h
    | read offset => exact busRead_effect hv offset (fun _ v => v) (fun _ _ hv => hv) h
    | poll offset mask w =>
      refine busRead_effect hv offset (fun x v => if x &&& mask = w then v else v.issueFirst [.poll offset mask w]) ?_ h
      intro x v hv; split
      · exact hv
      · exact issue _ _ hv
    | result =>
      unfold runHostOp at h
      exact busRead_effect hv _ (fun m v => v.issueFirst (resultReads m)) (fun m v hv => issue _ _ hv) h
    | access a =>
      simp only [runHostOp, busAccess] at h
      split at h
      · cases h
      · split at h
        · cases h
        · split at h
          · cases h
          · split at h
            · exact busWrite_effect hv _ _ h
            · exact busRead_effect hv _ (fun _ v => v) (fun _ _ hv => hv) h

/-- The core sequencer's turn (R34). -/
theorem coreTurn_effect {s u t : State} (hu : s.sameCore u) (h : coreTurn u = .next t) : StepEffect s t := by
  rcases coreTurn_cases u with ⟨p, hb, hp, h2⟩ | ⟨-, h2⟩ <;> rw [h2] at h
  · have hb' : u.busy = s.busy := by rw [hu]
    have hp' : u.pending = s.pending := by rw [hu]
    exact .completed p (hb' ▸ hb) (hp' ▸ hp) u hu t h
  · cases h; exact .unchanged _ hu

/-- A step has one of the effects listed in `StepEffect`. -/
theorem step_effect {s t : State} (h : step s = .next t) : StepEffect s t := by
  rcases step_cases s with ⟨-, -, h2⟩ | ⟨-, -, h2⟩ | ⟨turn, rest, -, h2⟩ <;> rw [h2] at h
  · exact coreTurn_effect (show s.sameCore s from rfl) h
  · exact hostTurn_effect (show s.sameCore s from rfl) h
  · have hu : s.sameCore { s with turns := rest } := rfl
    cases turn with
    | host => exact hostTurn_effect hu h
    | core => exact coreTurn_effect hu h
    | mix =>
      simp only [takeTurn] at h; cases h
      rcases mixTurn_cases { s with turns := rest } with ⟨p, hb, hp, h3⟩ | ⟨-, h3⟩ <;> rw [h3]
      · exact StepEffect.mixed (s := s) p hb hp { s with turns := rest } hu
      · exact .unchanged _ hu
    | assertReset => cases h; exact .resetAsserted _ hu
    | releaseReset =>
      simp only [takeTurn, State.releaseReset] at h; cases h
      split
      · next hr => exact .resetReleased hr _ hu
      · exact .unchanged _ hu

end Sys2Proof.Machine
end

