-- ==== Sys2Proof/Machine/HostProgram.lean ====
section
/-! DEFINITION. The host-program statements of 30_encoding.md rules R75 to R77: register names, statements and the
pseudo-instructions, each as the host operations it stands for. Nothing in `step` depends on this file. -/

namespace Sys2Proof.Machine

/-- The number that a list of digits of a base spells, from `acc` on (R75: values are hexadecimal or decimal). -/
def parseDigits (base : Nat) : List Char → Nat → Option Nat
  | [], acc => some acc
  | c :: cs, acc =>
    let d :=
      if 48 ≤ c.toNat ∧ c.toNat ≤ 57 then c.toNat - 48
      else if 97 ≤ c.toNat ∧ c.toNat ≤ 102 then c.toNat - 87
      else if 65 ≤ c.toNat ∧ c.toNat ≤ 70 then c.toNat - 55
      else 255
    if d < base then parseDigits base cs (base * acc + d) else none

/-- A value as R75 writes it: `0x` and hexadecimal digits, or decimal digits; it must be a `u32`. That the digits `A` to
`F` may be of either case, `0x` only small, leading zeros are allowed and a number past a `u32` is no value is DESIGN
CHOICE, safe (notes/assumptions/21). -/
def parseValue (text : List Char) : Option Word :=
  let number :=
    match text with
    | [] => none
    | ['0', 'x'] => none
    | '0' :: 'x' :: digits => parseDigits 16 digits 0
    | digits => parseDigits 10 digits 0
  match number with
  | some n => if n < 2 ^ 32 then some (BitVec.ofNat 32 n) else none
  | none => none

/-- A capital letter for a small one: register names are case-insensitive (R75). -/
def upperCase (c : Char) : Char := if 97 ≤ c.toNat ∧ c.toNat ≤ 122 then Char.ofNat (c.toNat - 32) else c

/-- A register by its name of R22, or `DATA[i]` (R75). R75 gives the two bases for values and says nothing of the index
`i`: it is read in decimal digits only, leading zeros allowed, with no limit of MAX_WORDS here (DESIGN CHOICE, safe,
notes/assumptions/21); `DATA[0x10]` and `DATA[]` name no register. -/
def parseReg (text : List Char) : Option Reg :=
  match text.map upperCase with
  | ['C', 'M', 'D'] => some .cmd
  | ['S', 'T', 'A', 'T', 'U', 'S'] => some .status
  | ['L', 'E', 'N'] => some .len
  | ['O', 'U', 'T', 'L', 'E', 'N'] => some .outlen
  | ['K', 'E', 'Y', '0'] => some (.key 0)
  | ['K', 'E', 'Y', '1'] => some (.key 1)
  | ['K', 'E', 'Y', '2'] => some (.key 2)
  | ['K', 'E', 'Y', '3'] => some (.key 3)
  | ['C', 'A', 'P', 'A', 'C', 'I', 'T', 'Y'] => some .capacity
  | 'D' :: 'A' :: 'T' :: 'A' :: '[' :: rest =>
    match rest.getLast?, parseDigits 10 rest.dropLast 0 with
    | some ']', some i => if rest.dropLast.isEmpty then none else some (.data i)
    | _, _ => none
  | _ => none

/-- `write REG, value` (R75). -/
def stmtWrite (r : Reg) (w : Word) : HostOp := .write r.offset w

/-- `read REG -> name` (R75); the name stands for the value's place in `State.reads`. -/
def stmtRead (r : Reg) : HostOp := .read r.offset

/-- `poll REG, mask, value` (R75). -/
def stmtPoll (r : Reg) (mask w : Word) : HostOp := .poll r.offset mask w

/-- The statements `ENCRYPT` and `DECRYPT`: a write of the command word to CMD (R75). -/
def stmtCommand (i : Instr) : HostOp := stmtWrite .cmd (encode i)

/-- `LOADKEY key_bytes` (R76). -/
def loadKey (key : Bytes) : List HostOp :=
  let kw := WordCodec.keyWords key
  [stmtWrite (.key 0) kw.k0, stmtWrite (.key 1) kw.k1, stmtWrite (.key 2) kw.k2, stmtWrite (.key 3) kw.k3]

/-- The writes of consecutive DATA words from DATA[i] on. -/
def writeWords (i : Nat) : Words → List HostOp
  | [] => []
  | w :: ws => stmtWrite (.data i) w :: writeWords (i + 1) ws

/-- `LOADMSG msg_bytes`: LEN, then the zero-padded words of the message (R76). -/
def loadMsg (msg : Bytes) : List HostOp :=
  stmtWrite .len (BitVec.ofNat 32 msg.length) :: writeWords 0 (WordCodec.decode msg false)

/-- `WAITDONE -> st`: poll for BUSY = 0 and DONE = 1, then one more read of STATUS (R76). -/
def waitDone : List HostOp := [stmtPoll .status 0x00000003#32 0x00000002#32, stmtRead .status]

/-- `XXTEA.ENC key, pt -> ct` (R76). -/
def xxteaEnc (key pt : Bytes) : List HostOp := loadKey key ++ loadMsg pt ++ stmtCommand .encrypt :: waitDone ++ [.result]

/-- `XXTEA.DEC key, ct -> pt` (R76). -/
def xxteaDec (key ct : Bytes) : List HostOp := loadKey key ++ loadMsg ct ++ stmtCommand .decrypt :: waitDone ++ [.result]

/-- The bytes `RESULT` names once its reads are made: the first `m` bytes of the DATA words read, where `m` is the OUTLEN
that `RESULT` read before them (R76); `reads` has the latest read first. -/
def resultBytes (reads : List Word) (m : Word) : Bytes :=
  (WordCodec.unpack (reads.take ((m.toNat + 3) / 4)).reverse).take m.toNat

end Sys2Proof.Machine
end

