-- ==== Sys2Proof/Tests/Slice0.lean ====
section
/-! SUPPORT. The model's own tests. Expected values come from the tables of 95_test_vectors.md, named beside each test, or
from the rule named there. The `witness_` theorems show, for each statement with hypotheses, concrete values that meet all
of them, at the ends of each clause's range. -/

namespace Sys2Proof.Tests

open Sys2Proof.Machine

/-! ### WellFormed refuses ill-formed terms -/

/-- R9: MAX_WORDS is at least 2 and at most 2^30, and BASE is a multiple of 4. -/
theorem test_params_refused :
    Params.wellFormed ⟨1, 0⟩ = false ∧ Params.wellFormed ⟨2 ^ 30 + 1, 0⟩ = false ∧ Params.wellFormed ⟨4, 2⟩ = false ∧
      Params.wellFormed ⟨2, 0⟩ = true ∧ Params.wellFormed ⟨2 ^ 30, 4⟩ = true := by decide

/-- R54, R22: an offset is a multiple of 4 inside the block. -/
theorem test_offset_refused :
    offsetWellFormed ⟨4, 0⟩ 0x002 = false ∧ offsetWellFormed ⟨4, 0⟩ 0x110 = false ∧
      offsetWellFormed ⟨4, 0⟩ 0x10C = true := by decide

/-- R54: an access is 32 bits wide and at an aligned address of the block. -/
theorem test_access_refused :
    Access.wellFormed ⟨4, 0x1000⟩ { addr := 0x1004, bits := 8, value := none } = false ∧
      Access.wellFormed ⟨4, 0x1000⟩ { addr := 0x1004, bits := 64, value := none } = false ∧
      Access.wellFormed ⟨4, 0x1000⟩ { addr := 0x1006, bits := 32, value := none } = false ∧
      Access.wellFormed ⟨4, 0x1000⟩ { addr := 0x0FFC, bits := 32, value := none } = false ∧
      Access.wellFormed ⟨4, 0x1000⟩ { addr := 0x1110, bits := 32, value := none } = false ∧
      Access.wellFormed ⟨4, 0x1000⟩ { addr := 0x110C, bits := 32, value := none } = true := by decide

/-- R54: each host operation is held to its offset. -/
theorem test_hostOp_refused :
    HostOp.wellFormed ⟨4, 0⟩ (.write 0x001 0#32) = false ∧ HostOp.wellFormed ⟨4, 0⟩ (.read 0x112) = false ∧
      HostOp.wellFormed ⟨4, 0⟩ (.poll 0x200 0#32 0#32) = false ∧
      HostOp.wellFormed ⟨4, 0⟩ (.access { addr := 0, bits := 16, value := some 1#32 }) = false := by decide

/-! ### Decoding, from words written out by R70 and R71 -/

/-- ENCRYPT: OP 0001, RSVD 28 zeros; its bus bytes are 01 00 00 00 (R53). -/
theorem test_decode_encrypt :
    decodeCommand 0b00000000000000000000000000000001#32 = .ok .encrypt ∧
      decodeBytes [0x01#8, 0x00#8, 0x00#8, 0x00#8] = .ok (.encrypt, []) ∧ decodeTableWord 32 1 = some .encrypt := by decide

/-- DECRYPT: OP 0010, RSVD 28 zeros; its bus bytes are 02 00 00 00 (R53). -/
theorem test_decode_decrypt :
    decodeCommand 0b00000000000000000000000000000010#32 = .ok .decrypt ∧
      decodeBytes [0x02#8, 0x00#8, 0x00#8, 0x00#8] = .ok (.decrypt, []) ∧ decodeTableWord 32 2 = some .decrypt := by decide

/-- The illegal words of table 2.5, and a command cut short (R70). -/
theorem test_decode_illegal :
    decodeCommand 0x00000000#32 = .error .illegalOp ∧ decodeCommand 0x00000003#32 = .error .illegalOp ∧
      decodeCommand 0x0000000F#32 = .error .illegalOp ∧ decodeCommand 0x00000011#32 = .error .reservedBitsSet ∧
      decodeCommand 0x80000001#32 = .error .reservedBitsSet ∧ decodeTableWord 32 3 = none ∧
      decodeBytes [0x01#8, 0x00#8] = .error .truncated := by decide

/-! ### Tables 2.1 to 2.4 -/

/-- The key words of "0123456789abcdef" (table 2.1.3, K). -/
def kw : Key := { k0 := 0x33323130#32, k1 := 0x37363534#32, k2 := 0x62613938#32, k3 := 0x66656463#32 }

/-- "abcde" (table 2.1.1). -/
def abcde : Bytes := [0x61#8, 0x62#8, 0x63#8, 0x64#8, 0x65#8]

/-- "Hello XXTEA!" and its sentinel, as words (program P1). -/
def hello : Words := [0x6C6C6548#32, 0x5858206F#32, 0x21414554#32, 0x0000000C#32]

/-- The ciphertext words of "Hello XXTEA!" under K (table 2.3.3). -/
def helloCt : Words := [0xBC3A3F1E#32, 0x0D440C7B#32, 0x77F33C48#32, 0xE40FA67C#32]

/-- Table 2.1.1: "", "abcde", and five bytes ff. -/
theorem test_decode_table :
    WordCodec.decode [] true = [0#32] ∧ WordCodec.decode abcde true = [0x64636261#32, 0x00000065#32, 5#32] ∧
      WordCodec.decode (List.replicate 5 0xFF#8) false = [0xFFFFFFFF#32, 0x000000FF#32] := by decide

/-- Table 2.1.2: both ends of each sentinel range and one step past them. -/
theorem test_encode_table :
    WordCodec.encode [0x64636261#32, 0x65#32, 5#32] true = .ok abcde ∧
      WordCodec.encode [0x64636261#32, 0x65#32, 8#32] true = .ok (abcde ++ [0#8, 0#8, 0#8]) ∧
      WordCodec.encode [0x64636261#32, 0x65#32, 4#32] true = .error .malformedCiphertext ∧
      WordCodec.encode [0x64636261#32, 0x65#32, 9#32] true = .error .malformedCiphertext ∧
      WordCodec.encode [0#32] true = .ok [] ∧ WordCodec.encode [1#32] true = .error .malformedCiphertext ∧
      WordCodec.encode [0xFFFFFFFF#32] false = .ok (List.replicate 4 0xFF#8) := by decide

/-- Table 2.1.3: a short key is padded with zeros; the 17th byte is ignored. -/
theorem test_keyWords_table :
    WordCodec.keyWords abcde = { k0 := 0x64636261#32, k1 := 0x65#32, k2 := 0#32, k3 := 0#32 } ∧
      WordCodec.keyWords ([0x30#8, 0x31#8, 0x32#8, 0x33#8, 0x34#8, 0x35#8, 0x36#8, 0x37#8, 0x38#8, 0x39#8, 0x61#8,
        0x62#8, 0x63#8, 0x64#8, 0x65#8, 0x66#8] ++ [0x58#8]) = kw := by decide

/-- Table 2.2.1, rows 3, 4 and 5: carries and bits shifted out, and the key index of position 7. -/
theorem test_mix_table :
    MixEngine.mix 0x9E3779B9#32 0xFFFFFFFF#32 0xFFFFFFFF#32 0 2#32
        { k0 := 0xFFFFFFFF#32, k1 := 0xFFFFFFFF#32, k2 := 0xFFFFFFFF#32, k3 := 0xFFFFFFFF#32 } = 0xB9C88654#32 ∧
      MixEngine.mix 0x9E3779B9#32 0x12345678#32 0x9ABCDEF0#32 1 2#32 { k0 := 1#32, k1 := 2#32, k2 := 3#32, k3 := 4#32 } =
        0xD3502A53#32 ∧
      MixEngine.mix 0x3C6EF372#32 0x80000000#32 0x00000001#32 7 0#32
        { k0 := 0x11111111#32, k1 := 0x22222222#32, k2 := 0x33333333#32, k3 := 0x44444444#32 } = 0x10B337A7#32 := by decide

/-- Table 2.3.1: the first round of "abcd" under K. -/
theorem test_first_round :
    CipherCore.encRound kw 1 CipherCore.delta ([0x64636261#32, 4#32], 4#32) =
      ([0x64FC150A#32, 0x295258A1#32], 0x295258A1#32) := by decide

/-- Table 2.4.1: the first iteration of decrypting "abcd" under K. -/
theorem test_first_iteration :
    CipherCore.decRound kw 1 0xC6EF3720#32 ([0x079B894F#32, 0x7B36201E#32], 0x079B894F#32) =
      ([0xB434559B#32, 0x15797A79#32], 0xB434559B#32) := by decide

/-- Table 2.3.2: the known answer for two zero words under the zero key. -/
theorem test_known_answer :
    CipherCore.encWords [0#32, 0#32] { k0 := 0#32, k1 := 0#32, k2 := 0#32, k3 := 0#32 } =
      [0x053704AB#32, 0x575D8C80#32] := by decide +kernel

/-- Table 2.3.3: "Hello XXTEA!" under K, and back (2.4.1). -/
theorem test_hello : CipherCore.encWords hello kw = helloCt ∧ CipherCore.decWords helloCt kw = hello := by decide +kernel

/-- Table 2.4.3: one word takes 58 iterations. -/
theorem test_one_word : CipherCore.decWords [0#32] kw = [0x560C4C03#32] := by decide +kernel

/-! ### One step each, from table 2.5 (MAX_WORDS = 4) -/

/-- CORE right after reset, with MAX_WORDS = 4 and BASE = 0x1000. -/
def small : State := { State.reset with params := ⟨4, 0x1000⟩ }

/-- An idle CORE with LEN set. -/
def withLen (n : Nat) : State := { small with len := BitVec.ofNat 32 n }

/-- STATUS after a step, where there is a next state. -/
def statusAfter (o : Host.Outcome State Fault Refusal) : Option Word :=
  match o with
  | .next t => some t.statusWord
  | _ => none

/-- The words DATA[0] to DATA[n-1] after a step, where there is a next state. -/
def wordsAfter (n : Nat) (o : Host.Outcome State Fault Refusal) : Option Words :=
  match o with
  | .next t => some ((List.range n).map t.dataWord)
  | _ => none

/-- CORE after ENCRYPT was accepted in program P1. -/
def encrypting : State :=
  { small with
    len := 12#32, key := kw, busy := true
    data := Memory.writeBytes [] 0 (WordCodec.unpack (hello.take 3))
    pending := some { cmd := .encrypt, len := 12#32, work := CipherCore.encStart hello } }

/-- CORE after DECRYPT was accepted in program P2. -/
def decrypting : State :=
  { small with
    len := 16#32, key := kw, busy := true
    data := Memory.writeBytes [] 0 (WordCodec.unpack helloCt)
    pending := some { cmd := .decrypt, len := 16#32, work := CipherCore.decStart helloCt } }

/-- Table 2.5, ENCRYPT with LEN = 0, 12 and 13. -/
theorem test_encrypt_accept :
    statusAfter (step ((withLen 0).withFetchWord 32 1)) = some 0x02#32 ∧
      statusAfter (step ((withLen 12).withFetchWord 32 1)) = some 0x01#32 ∧
      statusAfter (step ((withLen 13).withFetchWord 32 1)) = some 0x32#32 := ⟨rfl, rfl, rfl⟩

/-- Program P1: the completion of ENCRYPT. -/
theorem test_encrypt_complete :
    wordsAfter 4 (step encrypting) = some helloCt ∧ statusAfter (step encrypting) = some 0x02#32 := by decide +kernel

/-- Table 2.5, DECRYPT with LEN = 0, 3, 4, 16 and 17. -/
theorem test_decrypt_accept :
    statusAfter (step ((withLen 0).withFetchWord 32 2)) = some 0x02#32 ∧
      statusAfter (step ((withLen 3).withFetchWord 32 2)) = some 0x12#32 ∧
      statusAfter (step ((withLen 4).withFetchWord 32 2)) = some 0x01#32 ∧
      statusAfter (step ((withLen 16).withFetchWord 32 2)) = some 0x01#32 ∧
      statusAfter (step ((withLen 17).withFetchWord 32 2)) = some 0x32#32 := ⟨rfl, rfl, rfl, rfl, rfl⟩

/-- Program P2: the completion of DECRYPT. -/
theorem test_decrypt_complete :
    wordsAfter 3 (step decrypting) = some (hello.take 3) ∧ statusAfter (step decrypting) = some 0x02#32 := by decide +kernel

/-- Table 2.5: an illegal word, with the greatest LEN. -/
theorem test_illegal_word :
    statusAfter (step ((withLen 0xFFFFFFFF).withFetchWord 32 3)) = some 0x22#32 ∧
      statusAfter (step ((withLen 0).withFetchWord 32 0x80000001)) = some 0x22#32 := ⟨rfl, rfl⟩

/-- Program P6: LEN written while BUSY keeps its value. -/
theorem test_write_while_busy : busWrite 0x008 5#32 encrypting = .next encrypting := rfl

/-- R75: register names in either case, `DATA[i]` with a decimal index (notes/assumptions/21), and values in both bases. -/
theorem test_parse :
    parseReg ['k', 'e', 'Y', '3'] = some (.key 3) ∧ parseReg ['D', 'A', 'T', 'A', '[', '1', '2', ']'] = some (.data 12) ∧
      parseReg ['D', 'A', 'T', 'A', '[', '0', 'x', '1', '0', ']'] = none ∧
      parseReg ['D', 'A', 'T', 'A', '[', ']'] = none ∧ parseValue ['0', 'x', '1', 'F'] = some 31#32 ∧
      parseValue ['1', '2'] = some 12#32 ∧ parseValue ['1', 'F'] = none := by decide

/-- The bus encoding of program P1 up to `ENCRYPT` (R76, R77). -/
theorem test_loadMsg :
    loadMsg (WordCodec.unpack (hello.take 3)) ++ [stmtCommand .encrypt] =
      [.write 0x008 12#32, .write 0x100 0x6C6C6548#32, .write 0x104 0x5858206F#32, .write 0x108 0x21414554#32,
        .write 0x000 1#32] := by decide

/-! ### Witnesses: codec and cipher -/

theorem witness_DecodeIsExactMatch :
    (0x00000000#32 ≠ 0x00000001#32 ∧ 0x00000000#32 ≠ 0x00000002#32) ∧
      (0xFFFFFFFF#32 ≠ 0x00000001#32 ∧ 0xFFFFFFFF#32 ≠ 0x00000002#32) := by decide

theorem witness_PlacedWordRunsNext : decodeTableWord 32 1 = some .encrypt ∧ decodeTableWord 32 2 = some .decrypt := by decide

/-- The last byte of the last word of five bytes, which is padding. -/
theorem witness_DecodePadsAndPacks : 1 < (abcde.length + 3) / 4 ∧ 3 < 4 := by decide

theorem witness_EncodeUnpacksEveryWord : 0 < [0x64636261#32].length ∧ 3 < 4 := by decide

/-- One data word: the range's two ends, and the values just outside it; no data word: 0 and 1. -/
theorem witness_SentinelDecidesTruncation :
    (4 * (([0#32] : Words).length : Int) - 3 ≤ ((1#32).toNat : Int) ∧
        ((4#32).toNat : Int) ≤ 4 * (([0#32] : Words).length : Int)) ∧
      ¬ (4 * (([0#32] : Words).length : Int) - 3 ≤ ((0#32).toNat : Int)) ∧
      ¬ (((5#32).toNat : Int) ≤ 4 * (([0#32] : Words).length : Int)) ∧
      ([] : Words).length = 0 ∧ ([0#32] : Words).length = 1 := by decide

theorem witness_KeyWordsAreTheFirstSixteenBytes : 3 < 4 ∧ (List.replicate 16 (0xA5#8 : Byte)).length = 16 := by decide

/-- The greatest selector, with positions 0 and 3. -/
theorem witness_KeyIndexInRange : (3#32).toNat < 4 ∧ (0 : Nat) < 4 ∧ 3 < 4 := by decide

/-- The ends of each range of the table of round counts (R141). -/
theorem witness_RoundCount :
    CipherCore.rounds 8 = 11 ∧ CipherCore.rounds 9 = 11 ∧ CipherCore.rounds 10 = 10 ∧ CipherCore.rounds 12 = 10 ∧
      CipherCore.rounds 13 = 9 ∧ CipherCore.rounds 16 = 9 ∧ CipherCore.rounds 17 = 8 ∧ CipherCore.rounds 25 = 8 ∧
      CipherCore.rounds 26 = 7 ∧ CipherCore.rounds 51 = 7 ∧ CipherCore.rounds 52 = 6 := by decide

theorem witness_DecryptionLoopRunsRoundCountTimes :
    CipherCore.rounds 0 = 58 ∧ CipherCore.rounds 1 = 32 ∧ CipherCore.rounds 2 = 23 ∧ 0 ≤ CipherCore.rounds 0 ∧
      58 ≤ CipherCore.rounds 0 := by decide

theorem witness_RoundLoopsAreInverse : 2 ≤ ([0#32, 0#32] : Words).length := by decide

theorem witness_EncryptWorkingStateComputesEncWords : 2 ≤ hello.length ∧ hello.length ≤ 2 ^ 32 := by decide

theorem witness_DecryptWorkingStateComputesDecWords :
    1 ≤ ([0#32] : Words).length ∧ ([0#32] : Words).length ≤ 2 ^ 32 := by decide

theorem witness_CiphertextLength : 1 ≤ ([0x41#8] : Bytes).length := by decide

/-- A ciphertext of one word that is accepted: with every key word 4, 0x80742F2E decrypts to 0. -/
theorem witness_PlaintextIsShorter :
    1 ≤ ([0x2E#8, 0x2F#8, 0x74#8, 0x80#8] : Bytes).length ∧
      CipherCore.decrypt [0x2E#8, 0x2F#8, 0x74#8, 0x80#8] { k0 := 4#32, k1 := 4#32, k2 := 4#32, k3 := 4#32 } = .ok [] := by
  decide +kernel

/-- The longest plaintext of the smallest buffer. -/
theorem witness_DecryptUndoesEncrypt :
    Params.wellFormed ⟨2, 0⟩ = true ∧ ([0x41#8, 0x42#8, 0x43#8, 0x44#8] : Bytes).length ≤ 4 * (2 - 1) := by decide

/-- Both ends of the sentinel's range for one data word. -/
theorem witness_AnyInRangeSentinelIsAccepted :
    1 ≤ ([0x44434241#32] : Words).length ∧ 4 * ([0x44434241#32] : Words).length ≤ (1#32).toNat + 3 ∧
      (1#32).toNat ≤ 4 * ([0x44434241#32] : Words).length ∧ (4#32).toNat ≤ 4 * ([0x44434241#32] : Words).length := by decide

/-! ### Witnesses: registers and commands -/

theorem witness_StepRunsTheDecodedCommand :
    (small.withFetchWord 32 1).program = [.write 0x000 1#32] ∧ decodeCommand 1#32 = .ok .encrypt ∧
      (small.withFetchWord 32 1).turns = [.host] ∧ small.turns = [] ∧ small.busy = false := by decide

theorem witness_DataByteView : (3 < 4 ∧ (3 : Nat) < 4) ∧ 4 + ([0#8] : Bytes).length ≤ 5 := by decide

/-- The ends of the reserved range, the last DATA word and the first offset past it. -/
theorem witness_RegisterMap :
    (0x024 ≤ 0x024 ∧ 0x024 % 4 = 0) ∧ (0x0FC ≤ 0x0FF ∧ 0x0FC % 4 = 0) ∧ 3 < small.params.maxWords ∧
      0x100 + 4 * small.params.maxWords ≤ 0x110 := by decide

/-- The last DATA word, the byte before it and the one after it, and both ends of the reserved offsets. -/
theorem witness_IdleAccessesReadAndStore :
    small.idle ∧ (0 : Fin 4) ≠ 3 ∧ 3 < small.params.maxWords ∧ 11 < 4 * 3 ∧ 4 * 3 + 4 ≤ 16 ∧
      decodeOffset small.params 0x004 = .reg .status ∧ decodeOffset small.params 0x00C = .reg .outlen ∧
      decodeOffset small.params 0x020 = .reg .capacity ∧ decodeOffset small.params 0x024 = .reg .reserved ∧
      decodeOffset small.params 0x0FC = .reg .reserved ∧ decodeOffset small.params 0x10C = .reg (.data 3) :=
  ⟨⟨rfl, rfl⟩, by decide⟩

theorem witness_WritesWhileBusyAreIgnored :
    encrypting.busy = true ∧ offsetWellFormed encrypting.params 0x000 = true ∧
      offsetWellFormed encrypting.params 0x10C = true := by decide

theorem witness_ReadsWhileBusy :
    encrypting.busy = true ∧ encrypting.inReset = false ∧ decodeOffset encrypting.params 0x00C = .reg .outlen ∧
      (∀ i, Reg.outlen ≠ .data i) ∧ 3 < encrypting.params.maxWords := by
  refine ⟨rfl, rfl, rfl, ?_, by decide⟩
  intro i h; cases h

/-- An access that completes at each end of the block, one of each wrong kind in it, and one on each side of it. -/
theorem witness_BusErrors :
    small.params.wellFormed = true ∧
      Access.wellFormed small.params { addr := 0x1000, bits := 32, value := none } = true ∧
      Access.wellFormed small.params { addr := 0x110C, bits := 32, value := some 7#32 } = true ∧
      (small.params.base ≤ 0x110F ∧ 0x110F < small.params.base + (0x100 + 4 * small.params.maxWords) ∧ 0x110F % 4 ≠ 0) ∧
      ((8 : Nat) ≠ 32 ∧ small.params.base ≤ 0x1000) ∧
      0x0FFC < small.params.base ∧ small.params.base + (0x100 + 4 * small.params.maxWords) ≤ 0x1110 := by decide

theorem witness_PollReadsUntilItMatches :
    ({ small with program := waitDone } : State).program = .poll 0x004 3#32 2#32 :: [.read 0x004] ∧
      decodeOffset small.params 0x004 = .reg .status := by decide

/-- An idle CORE with a result of five bytes, and one that is BUSY. -/
theorem witness_ResultReadsOutlenThenData :
    ({ small with outlen := 5#32, program := [.result] } : State).program = .result :: [] ∧
      ((5#32).toNat + 3) / 4 = 2 ∧
      ({ encrypting with program := [.result] } : State).program = .result :: [] ∧ encrypting.busy = true := by decide

theorem witness_IllegalWordFinishesAtOnce :
    small.idle ∧ rsvdField 0x11#32 ≠ 0#28 ∧ (opField 0#32 ≠ 0x1#4 ∧ opField 0#32 ≠ 0x2#4) ∧
      (opField 0x3#32 ≠ 0x1#4 ∧ opField 0x3#32 ≠ 0x2#4) := ⟨⟨rfl, rfl⟩, by decide⟩

/-- LEN = 13; 0; 1 and 12: the three clauses at the ends of their ranges. -/
theorem witness_EncryptAcceptance :
    ((withLen 13).idle ∧ 4 * ((withLen 13).params.maxWords - 1) < (withLen 13).len.toNat) ∧
      ((withLen 0).idle ∧ (withLen 0).len = 0#32) ∧
      ((withLen 1).idle ∧ (withLen 1).len ≠ 0#32) ∧
      ((withLen 12).idle ∧ ¬ 4 * ((withLen 12).params.maxWords - 1) < (withLen 12).len.toNat) :=
  ⟨⟨⟨rfl, rfl⟩, by decide⟩, ⟨⟨rfl, rfl⟩, by decide⟩, ⟨⟨rfl, rfl⟩, by decide⟩, ⟨⟨rfl, rfl⟩, by decide⟩⟩

/-- LEN = 17; 0; 1 and 3; 4 and 16: the four clauses at the ends of their ranges. -/
theorem witness_DecryptAcceptance :
    ((withLen 17).idle ∧ 4 * (withLen 17).params.maxWords < (withLen 17).len.toNat) ∧
      ((withLen 0).idle ∧ (withLen 0).len = 0#32) ∧
      ((withLen 1).idle ∧ (withLen 1).len ≠ 0#32) ∧ ((withLen 3).idle ∧ (withLen 3).len.toNat ≤ 3) ∧
      ((withLen 4).idle ∧ ¬ (withLen 4).len.toNat ≤ 3) ∧
      ((withLen 16).idle ∧ ¬ 4 * (withLen 16).params.maxWords < (withLen 16).len.toNat) :=
  ⟨⟨⟨rfl, rfl⟩, by decide⟩, ⟨⟨rfl, rfl⟩, by decide⟩, ⟨⟨rfl, rfl⟩, by decide⟩, ⟨⟨rfl, rfl⟩, by decide⟩,
    ⟨⟨rfl, rfl⟩, by decide⟩, ⟨⟨rfl, rfl⟩, by decide⟩⟩

theorem witness_CapacityError :
    ((withLen 13).idle ∧ 4 * ((withLen 13).params.maxWords - 1) < (withLen 13).len.toNat) ∧
      ((withLen 17).idle ∧ 4 * (withLen 17).params.maxWords < (withLen 17).len.toNat) :=
  ⟨⟨⟨rfl, rfl⟩, by decide⟩, ⟨⟨rfl, rfl⟩, by decide⟩⟩

/-- Each clause of the order in turn: an illegal word; LEN = 13 and 17; 0; 3; and lengths that are processed. -/
theorem witness_OneErrorInPriorityOrder :
    ((withLen 0xFFFFFFFF).idle ∧ 3#32 ≠ 0x00000001#32 ∧ 3#32 ≠ 0x00000002#32) ∧
      4 * ((withLen 13).params.maxWords - 1) < (withLen 13).len.toNat ∧
      4 * (withLen 17).params.maxWords < (withLen 17).len.toNat ∧ (withLen 0).len = 0#32 ∧
      (withLen 3).len.toNat ≤ 3 ∧ ¬ (withLen 4).len.toNat ≤ 3 ∧
      ¬ 4 * (withLen 16).params.maxWords < (withLen 16).len.toNat := ⟨⟨⟨rfl, rfl⟩, by decide⟩, by decide⟩

theorem witness_CommandTurnedAway : encrypting.busy = true ∧ small.assertReset.inReset = true := ⟨rfl, rfl⟩

theorem witness_EncryptCompletion :
    encrypting.busy = true ∧
      encrypting.pending = some { cmd := .encrypt, len := 12#32, work := CipherCore.encStart hello } := ⟨rfl, rfl⟩

/-- A published plaintext (P2), and a ciphertext that is MALFORMED (the same with another key, table 2.4.3). -/
theorem witness_DecryptCompletion :
    (decrypting.busy = true ∧
        decrypting.pending = some { cmd := .decrypt, len := 16#32, work := CipherCore.decStart helloCt }) ∧
      CipherCore.decrypt (WordCodec.unpack helloCt) kw = .ok (WordCodec.unpack (hello.take 3)) ∧
      CipherCore.decrypt (WordCodec.unpack helloCt) small.key = .error .malformedCiphertext :=
  ⟨⟨rfl, rfl⟩, by decide +kernel⟩

theorem witness_EncryptCommand :
    ((withLen 1).idle ∧ 1 ≤ (withLen 1).len.toNat) ∧
      ((withLen 12).idle ∧ (withLen 12).len.toNat ≤ 4 * ((withLen 12).params.maxWords - 1) ∧
        4 * (((withLen 12).len.toNat + 3) / 4 + 1) < 2 ^ 32) :=
  ⟨⟨⟨rfl, rfl⟩, by decide⟩, ⟨⟨rfl, rfl⟩, by decide⟩⟩

/-- A length of 16 with a sentinel in range, and one out of it (table 2.4.3). -/
theorem witness_DecryptCommand :
    ((withLen 4).idle ∧ 4 ≤ (withLen 4).len.toNat) ∧
      ((withLen 16).idle ∧ (withLen 16).len.toNat ≤ 4 * (withLen 16).params.maxWords) ∧
      (CipherCore.decWords helloCt kw = hello.take 3 ++ [12#32] ∧ 4 * (hello.take 3).length ≤ (12#32).toNat + 3 ∧
        (12#32).toNat ≤ 4 * (hello.take 3).length) ∧
      CipherCore.decWords [0#32] kw = [] ++ [0x560C4C03#32] :=
  ⟨⟨⟨rfl, rfl⟩, by decide⟩, ⟨⟨rfl, rfl⟩, by decide⟩, by decide +kernel⟩

theorem witness_MachineRoundTrip :
    small.params.wellFormed = true ∧ ((withLen 1).idle ∧ 1 ≤ (withLen 1).len.toNat) ∧
      ((withLen 12).idle ∧ (withLen 12).len.toNat ≤ 4 * ((withLen 12).params.maxWords - 1) ∧
        4 * (((withLen 12).len.toNat + 3) / 4 + 1) < 2 ^ 32) :=
  ⟨by decide, ⟨⟨rfl, rfl⟩, by decide⟩, ⟨⟨rfl, rfl⟩, by decide⟩⟩

/-- The state of P1 and one whose DATA holds another byte past LEN and whose working state is elsewhere. -/
theorem witness_BytesPastLengthDoNotMatter :
    encrypting.busy = true ∧ (mixTurn encrypting).busy = true ∧
      encrypting.pending = some { cmd := .encrypt, len := 12#32, work := CipherCore.encStart hello } ∧
      ({ mixTurn encrypting with data := Memory.write encrypting.data 12 1#8 } : State).pending =
        some { cmd := .encrypt, len := 12#32, work := CipherCore.encMix kw (CipherCore.encStart hello) } ∧
      ({ mixTurn encrypting with data := Memory.write encrypting.data 12 1#8 } : State).key = encrypting.key ∧
      4 * (((12#32).toNat + 3) / 4 + 1) < 2 ^ 32 ∧ decrypting.pending.map Pending.cmd = some .decrypt ∧
      ∀ a, a < 12 →
        ({ mixTurn encrypting with data := Memory.write encrypting.data 12 1#8 } : State).byteAt a =
          encrypting.byteAt a := by
  refine ⟨rfl, rfl, rfl, rfl, rfl, by decide, rfl, ?_⟩
  intro a ha
  interval_cases a <;> rfl

theorem witness_WorkingStateIsInvisible : encrypting.busy = true ∧ encrypting.pending.isSome = true := ⟨rfl, rfl⟩

theorem witness_CompletionIsReached :
    encrypting.program = [] ∧ encrypting.busy = true ∧ encrypting.pending.isSome = true ∧ encrypting.inReset = false ∧
      .assertReset ∉ encrypting.turns := by decide

theorem witness_ResetEvent :
    offsetWellFormed encrypting.assertReset.params 0x10C = true ∧
      decodeOffset encrypting.assertReset.params 0x020 = .reg .capacity ∧
      decodeOffset encrypting.assertReset.params 0x10C = .reg (.data 3) := by decide

/-! ### Witnesses: whole steps -/

/-- The invariant holds of a running command. -/
theorem encrypting_inv : encrypting.Inv where
  params := by decide
  memory := by decide
  inBuffer := by decide
  notBusyAndDone := by decide
  errOnlyWhenDone := by decide
  errOutlen := by decide
  outlenUntilDone := by decide
  outlenInBuffer := by decide
  busyIffPending := rfl
  pendingFits := by
    intro p hp
    obtain rfl : _ = p := Option.some.inj hp
    exact ⟨rfl, by decide, by decide⟩
  heldInReset := by decide

theorem witness_StepKeepsInvariant : encrypting.Inv ∧ ∃ t, step encrypting = .next t := ⟨encrypting_inv, _, rfl⟩

/-- The same state with a mix evaluation as its next turn. -/
theorem witness_StepKeepsWorkingStateTrue :
    encrypting.WorkAgrees ∧ step { encrypting with turns := [.mix] } = .next (mixTurn encrypting) := by
  refine ⟨?_, rfl⟩
  intro p hp
  obtain rfl : _ = p := Option.some.inj hp
  exact ⟨0, rfl⟩

theorem witness_OnlyBusMisuseStops :
    ∀ op ops, (small.withFetchWord 32 1).program = op :: ops → op.wellFormed small.params = true := by
  intro op ops h
  obtain ⟨rfl, -⟩ := List.cons.inj h
  decide

theorem witness_CapacityIsConstant : ∃ t, step (small.withFetchWord 32 1) = .next t := ⟨_, rfl⟩

/-- CORE after an illegal command word. -/
def illegalDone : State := { small with done := true, err := .illegalCmd }

theorem witness_ErrorStaysUntilNextCommand :
    illegalDone.Inv ∧ illegalDone.err ≠ .none ∧
      ∃ t, step (illegalDone.withFetchWord 32 1) = .next t ∧ t.err ≠ illegalDone.err := by
  refine ⟨?_, by decide, _, rfl, by decide⟩
  constructor <;> first | decide | rfl | (intro p hp; cases hp)

end Sys2Proof.Tests
end

