-- ==== Sys2Proof/Proofs/IdleAccesses.lean ====
section
/-! R36: the host's reads and writes of an idle CORE. One rule per register operation, one for each register written
while idle, and one for a read while idle; the obligation is assembled from them. -/

namespace Sys2Proof.Machine

/-! ### Reading back what a register write stores -/

/-- Packing the four bytes of a word gives the word (R100). -/
theorem WordCodec.le32_byteOf (w : Word) :
    WordCodec.le32 (WordCodec.byteOf w 0) (WordCodec.byteOf w 1) (WordCodec.byteOf w 2) (WordCodec.byteOf w 3) = w := by
  apply BitVec.eq_of_getLsbD_eq
  intro i hi
  simp only [WordCodec.getLsbD_le32, WordCodec.getLsbD_byteOf]
  split
  · simp [*]
  · split
    · simp [show i - 8 < 8 by omega, show 8 + (i - 8) = i by omega]
    · split
      · simp [show i - 16 < 8 by omega, show 16 + (i - 16) = i by omega]
      · simp [show i - 24 < 8 by omega, show 24 + (i - 24) = i by omega]

/-- A key word after a write of KEYj: the value written for j, the old one for every other index (R27). -/
theorem Key.word_write (k : Key) (i j : Fin 4) (w : Word) :
    (k.write j w).word i.val = if i = j then w else k.word i.val := by
  fin_cases j <;> fin_cases i <;> rfl

/-- The byte view after a store in DATA[i]: its four bytes are the word's, every other byte is kept (R52). -/
theorem State.byteAt_writeDataWord (s : State) (i : Nat) (w : Word) (a : Nat) :
    (s.writeDataWord i w).byteAt a =
      if 4 * i ≤ a ∧ a < 4 * i + 4 then (WordCodec.bytes32 w).getD (a - 4 * i) 0#8 else s.byteAt a :=
  State.byteAt_memWrite s (4 * i) (WordCodec.bytes32 w) a

/-- DATA[i] reads back the word stored in it (R36, R52). -/
theorem State.dataWord_writeDataWord (s : State) (i : Nat) (w : Word) : (s.writeDataWord i w).dataWord i = w := by
  simpa [State.dataWord, State.byteAt_writeDataWord, WordCodec.bytes32] using WordCodec.le32_byteOf w

/-! ### The offsets of the writable registers -/

/-- KEYj stands at 0x010 + 4·j (R22). -/
theorem decodeOffset_key (c : Params) (j : Fin 4) : decodeOffset c (0x010 + 4 * j.val) = .reg (.key j) := by
  fin_cases j <;> rfl

/-- DATA[i] stands at 0x100 + 4·i when the buffer has it (R22). -/
theorem decodeOffset_data {c : Params} {i : Nat} (hi : i < c.maxWords) :
    decodeOffset c (0x100 + 4 * i) = .reg (.data i) := by
  rw [decodeOffset, if_neg (by omega), if_neg (by omega), if_neg (by omega), Nat.add_sub_cancel_left,
    Nat.mul_div_cancel_left i (by omega)]

/-- A bus write at a register's offset is the write of that register. -/
theorem busWrite_of_reg {s : State} {o : Nat} {r : Reg} (ho : decodeOffset s.params o = .reg r) (w : Word) :
    busWrite o w s = writeReg r w s := by rw [busWrite, ho]

/-- A bus read at a register's offset is the read of that register. -/
theorem busRead_of_reg {s : State} {o : Nat} {r : Reg} (ho : decodeOffset s.params o = .reg r)
    (use : Word → State → State) :
    busRead o use s = .next (use (s.readValue r) ((s.afterRead r).noteRead (s.readValue r))) := by rw [busRead, ho]

/-! ### Register accesses while idle -/

section Idle
variable {s : State} (h : s.idle)
include h

/-- While idle, neither R35 nor R240 ignores a write. -/
theorem State.writeGuard_of_idle : (s.busy || s.inReset) = false := by
  obtain ⟨hbusy, hreset⟩ := h
  rw [hbusy, hreset, Bool.or_false]

theorem writeReg_len_of_idle (w : Word) : writeReg .len w s = .next (s.writeLen w) := by
  rw [writeReg, State.writeGuard_of_idle h]; rfl

theorem writeReg_key_of_idle (j : Fin 4) (w : Word) : writeReg (.key j) w s = .next (s.writeKey j w) := by
  rw [writeReg, State.writeGuard_of_idle h]; rfl

theorem writeReg_data_of_idle (i : Nat) (w : Word) : writeReg (.data i) w s = .next (s.writeDataWord i w) := by
  rw [writeReg, State.writeGuard_of_idle h]; rfl

/-- No register of an idle CORE uses up a draw when it is read; only DATA could (R35). -/
theorem State.drawsOnRead_of_idle (r : Reg) : s.drawsOnRead r = false := by
  obtain ⟨hbusy, -⟩ := h
  cases r with
  | data i => rw [State.drawsOnRead, hbusy, Bool.false_and]
  | cmd | status | len | outlen | key j | capacity | reserved => rfl

/-- A read of an idle CORE changes no register and no count of draws (R55). -/
theorem State.afterRead_of_idle (r : Reg) : s.afterRead r = s := by
  rw [State.afterRead, State.drawsOnRead_of_idle h]; rfl

theorem State.readValue_of_idle (r : Reg) : s.readValue r = s.regValue r := by
  obtain ⟨-, hreset⟩ := h
  rw [State.readValue, hreset]; rfl

/-- OUTLEN of an idle CORE reads its value, where R35's 0 is that of a running one (R36). -/
theorem State.regValue_outlen_of_idle : s.regValue .outlen = s.outlen := by
  obtain ⟨hbusy, -⟩ := h
  rw [State.regValue, hbusy]; rfl

/-- DATA[i] of an idle CORE reads its word, where R35's draw is that of a running one (R36). -/
theorem State.regValue_data_of_idle (i : Nat) : s.regValue (.data i) = s.dataWord i := by
  obtain ⟨hbusy, -⟩ := h
  rw [State.regValue, hbusy]; rfl

/-- A read of an idle CORE changes nothing but the host's note of the register's value (R36, R55). -/
theorem busRead_of_idle {o : Nat} {r : Reg} (ho : decodeOffset s.params o = .reg r) :
    busRead o (fun _ t => t) s = .next (s.noteRead (s.regValue r)) := by
  rw [busRead_of_reg ho, State.afterRead_of_idle h, State.readValue_of_idle h]

end Idle

/-- The read-only registers and the reserved offsets ignore a write, idle or not (R24, R26, R28, R30). -/
theorem writeReg_readOnly {r : Reg} (hr : r = .status ∨ r = .outlen ∨ r = .capacity ∨ r = .reserved) (w : Word)
    (s : State) : writeReg r w s = .next s := by
  rcases hr with rfl | rfl | rfl | rfl <;> exact ite_self _

/-! ### The bus writes that store a value -/

section Stores
variable {s : State} (h : s.idle) (w : Word)
include h

/-- KEYj at its offset: the word is stored, the other key words and the rest of the state are kept (R27, R36). -/
theorem busWrite_key_stores (j : Fin 4) :
    ∃ t, busWrite (0x010 + 4 * j.val) w s = .next t ∧ t.key.word j.val = w ∧
      (∀ i : Fin 4, i ≠ j → t.key.word i.val = s.key.word i.val) ∧ t = { s with key := t.key } := by
  refine ⟨s.writeKey j w, ?_, ?_, fun i hij => ?_, rfl⟩
  · rw [busWrite_of_reg (decodeOffset_key _ j), writeReg_key_of_idle h]
  · rw [State.writeKey_key, Key.word_write, if_pos rfl]
  · rw [State.writeKey_key, Key.word_write, if_neg hij]

/-- DATA[i] at its offset: the word is stored, the other bytes and the rest of the state are kept (R29, R36, R52). -/
theorem busWrite_data_stores {i : Nat} (hi : i < s.params.maxWords) :
    ∃ t, busWrite (0x100 + 4 * i) w s = .next t ∧ t.dataWord i = w ∧
      (∀ a, a < 4 * i ∨ 4 * i + 4 ≤ a → t.byteAt a = s.byteAt a) ∧ t = { s with data := t.data } := by
  refine ⟨s.writeDataWord i w, ?_, State.dataWord_writeDataWord s i w, fun a ha => ?_, rfl⟩
  · rw [busWrite_of_reg (decodeOffset_data hi), writeReg_data_of_idle h]
  · rw [State.byteAt_writeDataWord, if_neg (by omega)]

end Stores

/-- Settles O27: each kind of write by the rule of its register, the reads by their common rule and the values of R36. -/
theorem idleAccessesReadAndStore : Obligations.IdleAccessesReadAndStore := by
  intro s w h
  refine ⟨?_, busWrite_key_stores h w, fun i => busWrite_data_stores h w, fun o r ho hr => ?_, fun o r ho => ?_⟩
  · exact (busWrite_of_reg rfl w).trans (writeReg_len_of_idle h w)
  · rw [busWrite_of_reg ho, writeReg_readOnly hr]
  · rw [busRead_of_idle h ho]
    cases r with
    | outlen => rw [State.regValue_outlen_of_idle h]; rfl
    | data i => rw [State.regValue_data_of_idle h]; rfl
    | cmd | status | len | key j | capacity | reserved => rfl

end Sys2Proof.Machine
end

