-- ==== Sys2Proof/Proofs/DataByteView.lean ====
section
/-! R52: DATA as bytes and as words. Byte `j` of a packed word, then `MemRead` unfolded byte by byte and packed word by
word; the obligation is assembled from these and the rules of `MemWrite`. -/

namespace Sys2Proof.Machine

/-! ### Packing -/

/-- Byte `j` of a packed word is the `j`-th byte packed (R51, R100). -/
theorem WordCodec.byteOf_le32 (b0 b1 b2 b3 : Byte) {j : Nat} (hj : j < 4) :
    WordCodec.byteOf (WordCodec.le32 b0 b1 b2 b3) j = [b0, b1, b2, b3].getD j 0#8 := by
  apply BitVec.eq_of_getLsbD_eq
  intro i hi
  rw [WordCodec.getLsbD_byteOf, WordCodec.getLsbD_le32]
  obtain rfl | rfl | rfl | rfl : j = 0 ∨ j = 1 ∨ j = 2 ∨ j = 3 := by omega
  · simp [hi]
  · simp [hi, show 8 + i < 16 by omega]
  · simp [hi, show ¬16 + i < 8 by omega, show 16 + i < 24 by omega]
  · simp [hi, show ¬24 + i < 8 by omega, show ¬24 + i < 16 by omega]

/-- Bytes that make whole words need no padding (R101). -/
theorem WordCodec.pad_of_dvd {b : Bytes} (h : 4 ∣ b.length) : WordCodec.pad b = b := by
  rw [WordCodec.pad, Nat.mod_eq_zero_of_dvd h, List.replicate_zero, List.append_nil]

/-- Without a sentinel, bytes that make whole words decode to their packed groups (R101). -/
theorem WordCodec.decode_of_dvd {b : Bytes} (h : 4 ∣ b.length) :
    WordCodec.decode b false = WordCodec.packGroups b := by
  rw [WordCodec.decode, WordCodec.pad_of_dvd h]; rfl

/-! ### The bytes and the words of the view -/

/-- Byte `j` of DATA[i] is the byte at view offset `4i + j` (R52). -/
theorem State.byteOf_dataWord (s : State) (i : Nat) {j : Nat} (hj : j < 4) :
    WordCodec.byteOf (s.dataWord i) j = s.byteAt (4 * i + j) := by
  rw [State.dataWord, WordCodec.byteOf_le32 _ _ _ _ hj]
  obtain rfl | rfl | rfl | rfl : j = 0 ∨ j = 1 ∨ j = 2 ∨ j = 3 := by omega
  all_goals rfl

/-- `MemWrite` keeps every byte outside those it writes (R52). -/
theorem State.byteAt_memWrite_of_outside (s : State) {a c : Nat} {b : Bytes} (h : c < a ∨ a + b.length ≤ c) :
    (s.memWrite a b).byteAt c = s.byteAt c := by
  rw [State.byteAt_memWrite, if_neg (by omega)]

/-- `MemRead` of one byte more: the byte at its offset, then the bytes from the next offset on (R52). -/
theorem State.memRead_succ (s : State) (a n : Nat) :
    s.memRead a (n + 1) = s.byteAt a :: s.memRead (a + 1) n := by
  simp [State.memRead, List.range_succ_eq_map, Nat.add_assoc, Nat.add_comm 1]

/-- `MemRead` of whole words from a word's offset on packs to the DATA words from there (R52). -/
theorem State.packGroups_memRead (s : State) (i n : Nat) :
    WordCodec.packGroups (s.memRead (4 * i) (4 * n)) = (List.range' i n).map s.dataWord := by
  induction n generalizing i with
  | zero => rfl
  | succ n ih =>
    have hread : s.memRead (4 * i) (4 * (n + 1)) =
        s.byteAt (4 * i) :: s.byteAt (4 * i + 1) :: s.byteAt (4 * i + 2) :: s.byteAt (4 * i + 3) ::
          s.memRead (4 * (i + 1)) (4 * n) := by
      rw [Nat.mul_succ]; simp only [State.memRead_succ]; rfl
    rw [hread, WordCodec.packGroups, ih, List.range'_succ, List.map_cons, State.dataWord]

/-- The words of the first `4n` bytes of the view are the first `n` DATA words (R52). -/
theorem State.decode_memRead (s : State) (n : Nat) :
    WordCodec.decode (s.memRead 0 (4 * n)) false = (List.range n).map s.dataWord := by
  have hlen : 4 ∣ (s.memRead 0 (4 * n)).length := by rw [State.length_memRead]; exact Nat.dvd_mul_right 4 n
  rw [WordCodec.decode_of_dvd hlen, List.range_eq_range']
  exact State.packGroups_memRead s 0 n

/-- Settles O24, each clause by its rule of the byte view; that `MemRead` lists the bytes is its definition. -/
theorem dataByteView : Obligations.DataByteView := by
  intro s a b
  exact ⟨State.memRead_memWrite s a b, fun c => State.byteAt_memWrite_of_outside s,
    fun i j => State.byteOf_dataWord s i, fun n => rfl, State.decode_memRead s⟩

end Sys2Proof.Machine
end

section
/-! R72: decoding is exact match. The decoder answers a command for that command's own word and an error for a word that
is no command's. -/

namespace Sys2Proof

/-- The word of a command decodes to it (R71, R72). -/
@[simp] theorem decodeCommand_encode (i : Instr) : decodeCommand (encode i) = .ok i := by
  have hword : Laws.CommandWord.Statement i := by
    cases i with
    | encrypt => exact Laws.CommandWord.encrypt
    | decrypt => exact Laws.CommandWord.decrypt
  obtain ⟨-, -, hdecode, -⟩ := hword
  exact hdecode

/-- A word that encodes no command is illegal, whatever its RSVD (R72, R73). -/
theorem decodeCommand_error_of_ne_encode {c : BitVec 32} (h : ∀ i, c ≠ encode i) :
    ∃ e, decodeCommand c = .error e := by
  have hne1 : c ≠ 0x00000001#32 := h .encrypt
  have hne2 : c ≠ 0x00000002#32 := h .decrypt
  rw [decodeCommand, if_neg hne1, if_neg hne2]
  split
  · exact ⟨.reservedBitsSet, rfl⟩
  · exact ⟨.illegalOp, rfl⟩

/-- Only the word of a command decodes to it (R72). -/
theorem decodeCommand_eq_ok_iff {c : BitVec 32} {i : Instr} : decodeCommand c = .ok i ↔ c = encode i := by
  constructor
  · intro hok
    by_cases hword : ∃ j, c = encode j
    · obtain ⟨j, rfl⟩ := hword
      rw [decodeCommand_encode] at hok
      rw [Except.ok.inj hok]
    · obtain ⟨e, herr⟩ := decodeCommand_error_of_ne_encode (not_exists.1 hword)
      rw [herr] at hok
      cases hok
  · rintro rfl
    exact decodeCommand_encode i

/-- Settles O1: the two words of R71 are the encodings of the two commands, so a word that is neither encodes none. -/
theorem decodeIsExactMatch : Obligations.DecodeIsExactMatch := by
  intro c
  refine ⟨decodeCommand_eq_ok_iff, decodeCommand_eq_ok_iff, fun hne1 hne2 => decodeCommand_error_of_ne_encode ?_⟩
  intro i
  cases i with
  | encrypt => exact hne1
  | decrypt => exact hne2

end Sys2Proof
end

section
/-! R100 to R108: WordCodec. Each function is said once by the bytes of its words (packing, padding, `decode`, `unpack`,
`keyWords`), and the sentinel check of R106 by the range of m; the five obligations are assembled from these. -/

namespace Sys2Proof.Machine

/-! ### One word and its bytes -/

/-- Unpacking a packed word gives the four bytes packed (R100). -/
@[simp] theorem WordCodec.bytes32_le32 (b0 b1 b2 b3 : Byte) :
    WordCodec.bytes32 (WordCodec.le32 b0 b1 b2 b3) = [b0, b1, b2, b3] := by
  simp [WordCodec.bytes32, WordCodec.byteOf_le32]

/-- `bytes32` lists the bytes of a word in order (R100). -/
theorem WordCodec.getD_bytes32 (w : Word) {j : Nat} (hj : j < 4) :
    (WordCodec.bytes32 w).getD j 0#8 = WordCodec.byteOf w j := by
  obtain rfl | rfl | rfl | rfl : j = 0 ∨ j = 1 ∨ j = 2 ∨ j = 3 := by omega
  all_goals rfl

/-- A word is known by its four bytes (R12). -/
theorem WordCodec.eq_of_byteOf_eq {v w : Word} (h : ∀ j, j < 4 → WordCodec.byteOf v j = WordCodec.byteOf w j) :
    v = w := by
  rw [← WordCodec.le32_byteOf v, ← WordCodec.le32_byteOf w, h 0 (by decide), h 1 (by decide), h 2 (by decide),
    h 3 (by decide)]

/-- The bytes of the zero word are zero. -/
@[simp] theorem WordCodec.byteOf_zero (j : Nat) : WordCodec.byteOf 0#32 j = 0#8 := by simp [WordCodec.byteOf]

/-- Settles O6: the formula and the slices are the definitions of `le32` and `bytes32`, the inverses the rules above. -/
theorem packingOneWordIsInvertible : Obligations.PackingOneWordIsInvertible :=
  ⟨fun _ _ _ _ => rfl, fun _ => rfl, WordCodec.bytes32_le32, WordCodec.le32_byteOf, rfl⟩

/-! ### Sequences of words and their bytes -/

/-- Byte `4i + j` of the unpacked words is byte `j` of word `i`; past the end both are zero (R105). -/
theorem WordCodec.getD_unpack (ws : Words) (i : Nat) {j : Nat} (hj : j < 4) :
    (WordCodec.unpack ws).getD (4 * i + j) 0#8 = WordCodec.byteOf (ws.getD i 0#32) j := by
  induction ws generalizing i with
  | nil => simp [WordCodec.unpack]
  | cons w ws ih =>
    rw [WordCodec.unpack]
    cases i with
    | zero =>
      rw [List.getD_append _ _ _ _ (by rw [WordCodec.length_bytes32]; omega), Nat.mul_zero, Nat.zero_add,
        WordCodec.getD_bytes32 w hj, List.getD_cons_zero]
    | succ i =>
      rw [List.getD_append_right _ _ _ _ (by rw [WordCodec.length_bytes32]; omega), WordCodec.length_bytes32,
        show 4 * (i + 1) + j - 4 = 4 * i + j by omega, ih, List.getD_cons_succ]

/-- Unpacking the words packed from whole groups gives the bytes back (R100, R101). -/
theorem WordCodec.unpack_packGroups {b : Bytes} (hb : 4 ∣ b.length) :
    WordCodec.unpack (WordCodec.packGroups b) = b := by
  induction b using WordCodec.packGroups.induct with
  | case1 b0 b1 b2 b3 rest ih =>
    have hrest : 4 ∣ rest.length := by simpa [Nat.add_assoc] using hb
    rw [WordCodec.packGroups, WordCodec.unpack, WordCodec.bytes32_le32, ih hrest]
    rfl
  | case2 b hshort =>
    match b, hshort with
    | [], _ => rfl
    | [_], _ | [_, _], _ | [_, _, _], _ => exact absurd hb (by simp)
    | b0 :: b1 :: b2 :: b3 :: rest, hshort => exact absurd rfl (hshort b0 b1 b2 b3 rest)

/-- Padding adds only zero bytes: a byte read past the end is 0 with it and without it (R101). -/
theorem WordCodec.getD_pad (b : Bytes) (a : Nat) : (WordCodec.pad b).getD a 0#8 = b.getD a 0#8 := by
  rw [WordCodec.pad]
  by_cases ha : a < b.length
  · exact List.getD_append _ _ _ _ ha
  · have hle : b.length ≤ a := Nat.le_of_not_lt ha
    rw [List.getD_append_right _ _ _ _ hle, List.getD_eq_default _ _ hle, List.getD_eq_getElem?_getD,
      List.getElem?_getD_replicate_default_eq]

/-! ### `decode` -/

/-- `decode` without a sentinel packs the padded bytes (R101). -/
theorem WordCodec.decode_false (b : Bytes) :
    WordCodec.decode b false = WordCodec.packGroups (WordCodec.pad b) := rfl

/-- `decode` with a sentinel appends the byte length (R102). -/
theorem WordCodec.decode_true (b : Bytes) :
    WordCodec.decode b true = WordCodec.decode b false ++ [BitVec.ofNat 32 b.length] := rfl

/-- The decoded words: one for each group of four bytes, the last group padded (R101). -/
theorem WordCodec.length_decode_false (b : Bytes) : (WordCodec.decode b false).length = (b.length + 3) / 4 := by
  rw [WordCodec.decode_false, WordCodec.length_packGroups, WordCodec.length_pad, Nat.mul_div_cancel_left _ (by decide)]

/-- Unpacking the decoded words gives the padded bytes (R101, R105). -/
theorem WordCodec.unpack_decode_false (b : Bytes) :
    WordCodec.unpack (WordCodec.decode b false) = WordCodec.pad b :=
  WordCodec.unpack_packGroups (by rw [WordCodec.length_pad]; exact Nat.dvd_mul_right ..)

/-- Byte `j` of decoded word `i` is byte `4i + j` of the bytes, or 0 past their end (R101). -/
theorem WordCodec.byteOf_decode (b : Bytes) (i : Nat) {j : Nat} (hj : j < 4) :
    WordCodec.byteOf ((WordCodec.decode b false).getD i 0#32) j = b.getD (4 * i + j) 0#8 := by
  rw [← WordCodec.getD_unpack _ i hj, WordCodec.unpack_decode_false, WordCodec.getD_pad]

/-- Settles O7, from the length and the bytes of the decoded words. -/
theorem decodePadsAndPacks : Obligations.DecodePadsAndPacks := by
  intro b
  exact ⟨WordCodec.length_decode_false b, fun i _ _ hj => WordCodec.byteOf_decode b i hj, WordCodec.decode_true b⟩

/-! ### `encode` -/

/-- Settles O8: `encode` without truncation is `unpack`, whose length and bytes are known. -/
theorem encodeUnpacksEveryWord : Obligations.EncodeUnpacksEveryWord := by
  intro ws
  exact ⟨WordCodec.unpack ws, rfl, WordCodec.length_unpack ws, fun i _ _ hj => WordCodec.getD_unpack ws i hj⟩

/-- The sentinel check for `n` data words and the sentinel's own word (R106). -/
theorem WordCodec.sentinelInRange_succ (n : Nat) (m : Word) :
    WordCodec.sentinelInRange (n + 1) m = true ↔
      4 * (n : Int) - 3 ≤ (m.toNat : Int) ∧ (m.toNat : Int) ≤ 4 * (n : Int) := by
  simp only [WordCodec.sentinelInRange, Bool.and_eq_true, decide_eq_true_eq]
  omega

/-- `encode` with truncation, the sentinel set apart: the check decides, and the bytes are the data words' (R106). -/
theorem WordCodec.encode_append_true (ws : Words) (m : Word) :
    WordCodec.encode (ws ++ [m]) true =
      if WordCodec.sentinelInRange (ws.length + 1) m then .ok ((WordCodec.unpack ws).take m.toNat)
      else .error .malformedCiphertext := by
  simp only [WordCodec.encode, if_true, List.getLast?_concat, List.length_append, List.length_singleton]
  split
  next hr =>
    have hm : m.toNat ≤ (WordCodec.unpack ws).length := by
      rw [WordCodec.length_unpack]
      have := (WordCodec.sentinelInRange_succ ws.length m).1 hr
      omega
    rw [WordCodec.unpack_append, List.take_append_of_le_length hm]
  next => rfl

/-- `encode` with truncation answers bytes exactly for a sentinel in range (R106). -/
theorem WordCodec.encode_append_true_eq_ok_iff {ws : Words} {m : Word} {b : Bytes} :
    WordCodec.encode (ws ++ [m]) true = .ok b ↔
      WordCodec.sentinelInRange (ws.length + 1) m = true ∧ (WordCodec.unpack ws).take m.toNat = b := by
  rw [WordCodec.encode_append_true]
  split <;> simp [*]

/-- Settles O9: the check decides between the two answers, and with no data word or one it is the range the rule's
corner cases name. -/
theorem sentinelDecidesTruncation : Obligations.SentinelDecidesTruncation := by
  intro ws m
  simp only [← WordCodec.sentinelInRange_succ]
  refine ⟨fun hr => ?inRange, fun hr => ?outOfRange, fun hws => ?noWord, fun hws => ?oneWord⟩
  case inRange =>
    have hm := (WordCodec.sentinelInRange_succ ws.length m).1 hr
    refine ⟨_, WordCodec.encode_append_true_eq_ok_iff.2 ⟨hr, rfl⟩, ?_, rfl⟩
    rw [List.length_take, WordCodec.length_unpack]
    omega
  case outOfRange => rw [WordCodec.encode_append_true, if_neg hr]
  case noWord =>
    obtain rfl := List.length_eq_zero_iff.1 hws
    rw [WordCodec.encode_append_true_eq_ok_iff, WordCodec.sentinelInRange_succ, WordCodec.unpack, List.take_nil,
      ← BitVec.toNat_inj]
    simp
  case oneWord =>
    simp only [WordCodec.encode_append_true_eq_ok_iff, exists_and_left, exists_eq', and_true,
      WordCodec.sentinelInRange_succ, hws]
    omega

/-! ### Key words -/

/-- The four key words are the first four decoded words, zero words where the key has fewer (R108). -/
theorem WordCodec.word_keyWords (key : Bytes) {i : Nat} (hi : i < 4) :
    (WordCodec.keyWords key).word i = (WordCodec.decode key false).getD i 0#32 := by
  obtain rfl | rfl | rfl | rfl : i = 0 ∨ i = 1 ∨ i = 2 ∨ i = 3 := by omega
  all_goals rfl

/-- Byte `j` of key word `i` is key byte `4i + j`, or 0 past the end of the key (R108). -/
theorem WordCodec.byteOf_keyWords (key : Bytes) {i j : Nat} (hi : i < 4) (hj : j < 4) :
    WordCodec.byteOf ((WordCodec.keyWords key).word i) j = key.getD (4 * i + j) 0#8 := by
  rw [WordCodec.word_keyWords key hi, WordCodec.byteOf_decode key i hj]

/-- A key is known by its four words. -/
theorem Key.eq_of_word_eq {k k' : Key} (h : ∀ i, i < 4 → k.word i = k'.word i) : k = k' := by
  cases k
  cases k'
  rw [Key.mk.injEq]
  exact ⟨h 0 (by decide), h 1 (by decide), h 2 (by decide), h 3 (by decide)⟩

/-- Keys that agree on their first sixteen bytes give the same key words (R108). -/
theorem WordCodec.keyWords_eq_of_getD_eq {key key' : Bytes} (h : ∀ a, a < 16 → key.getD a 0#8 = key'.getD a 0#8) :
    WordCodec.keyWords key = WordCodec.keyWords key' := by
  refine Key.eq_of_word_eq fun i hi => WordCodec.eq_of_byteOf_eq fun j hj => ?_
  rw [WordCodec.byteOf_keyWords key hi hj, WordCodec.byteOf_keyWords key' hi hj]
  exact h _ (by omega)

/-- Settles O10: the first sixteen bytes of a longer key are those of its first sixteen-byte part. -/
theorem keyWordsAreTheFirstSixteenBytes : Obligations.KeyWordsAreTheFirstSixteenBytes := by
  intro key
  refine ⟨fun _ _ => WordCodec.byteOf_keyWords key, fun more hlen => ?_⟩
  exact WordCodec.keyWords_eq_of_getD_eq fun a ha => List.getD_append _ _ _ _ (by omega)

end Sys2Proof.Machine
end

section
/-! R122: the key index of MixEngine. `position & 3` is the position modulo 4; its range, its period and its values at
the first four positions follow from that. -/

namespace Sys2Proof.Machine

/-- The key index takes the position modulo 4 (R122). -/
theorem MixEngine.keyIndex_eq_mod (p : Nat) (e : Word) : MixEngine.keyIndex p e = p % 4 ^^^ e.toNat :=
  congrArg (· ^^^ e.toNat) (Nat.and_two_pow_sub_one_eq_mod p 2)

/-- Two numbers of two bits have an exclusive or of two bits, so every key word read is one of the four (R122). -/
theorem MixEngine.keyIndex_lt_four (p : Nat) {e : Word} (he : e.toNat < 4) : MixEngine.keyIndex p e < 4 := by
  rw [MixEngine.keyIndex_eq_mod]
  exact Nat.xor_lt_two_pow (n := 2) (Nat.mod_lt p (by decide)) he

theorem MixEngine.keyIndex_add_four (p : Nat) (e : Word) : MixEngine.keyIndex (p + 4) e = MixEngine.keyIndex p e := by
  rw [MixEngine.keyIndex_eq_mod, MixEngine.keyIndex_eq_mod, Nat.add_mod_right]

theorem MixEngine.keyIndex_of_lt_four {p : Nat} (hp : p < 4) (e : Word) : MixEngine.keyIndex p e = p ^^^ e.toNat := by
  rw [MixEngine.keyIndex_eq_mod, Nat.mod_eq_of_lt hp]

/-- Settles O11: only the range needs the selector to be below 4. -/
theorem keyIndexInRange : Obligations.KeyIndexInRange := fun p e he =>
  ⟨MixEngine.keyIndex_lt_four p he, MixEngine.keyIndex_add_four p e, fun hp => MixEngine.keyIndex_of_lt_four hp e⟩

end Sys2Proof.Machine
end

section
/-! R141: the round count of CipherCore. Cleared of its division, `rounds n = q` is a pair of inequalities, linear in the
buffer size once `q` is given; the rows of the table follow from that. -/

namespace Sys2Proof.Machine

/-- The 6 comes out of the floor, and the floor of a rational quotient of naturals is their natural quotient (R141). -/
theorem CipherCore.rounds_eq_floor (n : Nat) : (CipherCore.rounds n : Int) = ⌊(6 + 52 / ((n : ℚ) + 1) : ℚ)⌋ := by
  have quotient : ⌊(52 / ((n : ℚ) + 1) : ℚ)⌋ = 52 / ((n : Int) + 1) := mod_cast Rat.floor_natCast_div_natCast 52 (n + 1)
  rw [Int.floor_ofNat_add, quotient]
  rfl

theorem CipherCore.six_le_rounds (n : Nat) : 6 ≤ CipherCore.rounds n := Nat.le_add_right 6 _

theorem CipherCore.rounds_le (n : Nat) : CipherCore.rounds n ≤ 58 := Nat.add_le_add_left (Nat.div_le_self 52 (n + 1)) 6

theorem CipherCore.le_rounds_iff {n q : Nat} : q ≤ CipherCore.rounds n ↔ q * (n + 1) ≤ (n + 1) * 6 + 52 := by
  have common_denominator : CipherCore.rounds n = ((n + 1) * 6 + 52) / (n + 1) := (Nat.mul_add_div n.succ_pos 6 52).symm
  rw [common_denominator, Nat.le_div_iff_mul_le n.succ_pos]

/-- The round count is `q` when it reaches `q` and does not reach `q + 1`. -/
theorem CipherCore.rounds_eq_iff {n q : Nat} :
    CipherCore.rounds n = q ↔ q * (n + 1) ≤ (n + 1) * 6 + 52 ∧ ¬ (q + 1) * (n + 1) ≤ (n + 1) * 6 + 52 := by
  rw [← CipherCore.le_rounds_iff, ← CipherCore.le_rounds_iff]
  omega

/-- Settles O13: with `q` a numeral, each row of the table is linear arithmetic. -/
theorem roundCount : Obligations.RoundCount := by
  intro n
  refine ⟨CipherCore.rounds_eq_floor n, CipherCore.six_le_rounds n, CipherCore.rounds_le n, ?_⟩
  simp only [CipherCore.rounds_eq_iff]
  omega

end Sys2Proof.Machine
end

section
/-! R202 to R204: the errors of acceptance and their order. What STATUS reads at each end of a command, what a word
written to CMD of an idle CORE does, and what each command's accept step answers; the three obligations are assembled
from these. -/

namespace Sys2Proof.Machine

/-! ### STATUS at the ends of a command -/

@[simp] theorem State.statusWord_finishNow (s : State) (code : ErrCode) :
    (s.finishNow code).statusWord = statusOf false true code := State.statusWord_eq rfl rfl rfl

@[simp] theorem State.statusWord_finishEmpty (s : State) :
    s.finishEmpty.statusWord = statusOf false true .none := State.statusWord_eq rfl rfl rfl

@[simp] theorem State.statusWord_startCommand_clearResult (s : State) (i : Instr) (w : Work) :
    (s.clearResult.startCommand i w).statusWord = statusOf true false .none := State.statusWord_eq rfl rfl rfl

@[simp] theorem State.statusWord_publish (s : State) (b : Bytes) :
    (s.publish b).statusWord = statusOf false true .none := State.statusWord_eq rfl rfl rfl

@[simp] theorem State.statusWord_publishMalformed (s : State) :
    s.publishMalformed.statusWord = statusOf false true .malformed := State.statusWord_eq rfl rfl rfl

/-! ### Finishing at once -/

/-- `finishNow` itself sets each result register that the first line of acceptance clears (R33). -/
@[simp] theorem State.finishNow_clearResult (s : State) (code : ErrCode) :
    s.clearResult.finishNow code = s.finishNow code := rfl

/-- An immediate finish keeps LEN, the keys and the host's side (R33, R205). -/
theorem State.sameInputs_finishNow (s : State) (code : ErrCode) : s.sameInputs (s.finishNow code) :=
  ⟨rfl, rfl, rfl, rfl, rfl, rfl, rfl, rfl⟩

/-! ### A word written to CMD of an idle CORE -/

/-- A command word has RSVD 0 and its OP is one of the two of R71, so a word that R202 names illegal encodes no
command. -/
theorem ne_encode_of_illegalFields {c : Word} (hc : rsvdField c ≠ 0#28 ∨ (opField c ≠ 0x1#4 ∧ opField c ≠ 0x2#4))
    (i : Instr) : c ≠ encode i := by
  rintro rfl
  obtain hrsvd | ⟨hop1, hop2⟩ := hc
  · cases i with
    | encrypt | decrypt => exact hrsvd (by decide)
  · cases i with
    | encrypt => exact hop1 (by decide)
    | decrypt => exact hop2 (by decide)

section Idle
variable {s : State} (h : s.idle)
include h

/-- An idle CORE takes the command: its result registers are cleared and its accept step runs (R23, R33). -/
theorem State.acceptWith_of_idle (accept : State → State) : s.acceptWith accept = accept s.clearResult := by
  obtain ⟨hbusy, hreset⟩ := h
  rw [State.acceptWith, State.takesCommand, hbusy, hreset]
  rfl

theorem exec_encrypt_of_idle : exec .encrypt s = .next (acceptEncrypt s.clearResult) :=
  congrArg _ (State.acceptWith_of_idle h acceptEncrypt)

theorem exec_decrypt_of_idle : exec .decrypt s = .next (acceptDecrypt s.clearResult) :=
  congrArg _ (State.acceptWith_of_idle h acceptDecrypt)

/-- CMD stands at offset 0, and neither R35 nor R240 ignores the word (R22, R36). -/
theorem busWrite_cmd_of_idle (c : Word) : busWrite 0x000 c s = writeCommand c s := by
  rw [busWrite_of_reg (r := .cmd) rfl, writeReg, State.writeGuard_of_idle h]
  rfl

/-- The word of a command runs that command (R33, R72). -/
theorem busWrite_encode_of_idle (i : Instr) : busWrite 0x000 (encode i) s = exec i s := by
  rw [busWrite_cmd_of_idle h, writeCommand, decodeCommand_encode]

/-- A word that encodes no command finishes at once with ILLEGAL_CMD (R33, R202). -/
theorem busWrite_illegal_of_idle {c : Word} (hc : ∀ i, c ≠ encode i) :
    busWrite 0x000 c s = .next (s.finishNow .illegalCmd) := by
  obtain ⟨e, he⟩ := decodeCommand_error_of_ne_encode hc
  rw [busWrite_cmd_of_idle h, writeCommand, he]
  exact congrArg _ (State.acceptWith_of_idle h _)

/-- ENCRYPT past its limit finishes at once with CAPACITY (R145, R203). -/
theorem exec_encrypt_of_pastLimit (hcap : s.params.encryptLimit < s.len.toNat) :
    exec .encrypt s = .next (s.finishNow .capacity) := by
  rw [exec_encrypt_of_idle h, acceptEncrypt, State.clearResult_params, State.clearResult_len, if_pos hcap,
    State.finishNow_clearResult]

/-- DECRYPT past its limit finishes at once with CAPACITY (R163, R203). -/
theorem exec_decrypt_of_pastLimit (hcap : s.params.decryptLimit < s.len.toNat) :
    exec .decrypt s = .next (s.finishNow .capacity) := by
  rw [exec_decrypt_of_idle h, acceptDecrypt, State.clearResult_params, State.clearResult_len, if_pos hcap,
    State.finishNow_clearResult]

end Idle

/-- Settles O33: such a word encodes no command, and `finishNow` sets STATUS and OUTLEN and keeps the rest. -/
theorem illegalWordFinishesAtOnce : Obligations.IllegalWordFinishesAtOnce := by
  intro s c h hc
  have hstatus : (s.finishNow .illegalCmd).statusWord = 0x00000022#32 := by simp [statusOf_values]
  exact ⟨s.finishNow .illegalCmd, busWrite_illegal_of_idle h (ne_encode_of_illegalFields hc), rfl, rfl, rfl, hstatus, rfl,
    s.sameInputs_finishNow _, rfl, rfl, rfl⟩

/-- Settles O36: past its limit either command ends in the same `finishNow`. -/
theorem capacityError : Obligations.CapacityError := by
  intro s i h hcap
  have hexec : exec i s = .next (s.finishNow .capacity) := by
    cases i with
    | encrypt => exact exec_encrypt_of_pastLimit h hcap
    | decrypt => exact exec_decrypt_of_pastLimit h hcap
  have hstatus : (s.finishNow .capacity).statusWord = 0x00000032#32 := by simp [statusOf_values]
  exact ⟨s.finishNow .capacity, hexec, rfl, rfl, rfl, hstatus, rfl, s.sameInputs_finishNow _, rfl, rfl⟩

/-! ### The outcome of a command, in the order of R204 -/

/-- A completion reports success or, for DECRYPT only, MALFORMED (R34, R201). -/
theorem completePending_reports (p : Pending) (s : State) :
    ∃ t, completePending p s = .next t ∧
      (t.statusWord = 0x00000002#32 ∨ (p.cmd = .decrypt ∧ t.statusWord = 0x00000012#32)) := by
  obtain ⟨-, ht⟩ | ⟨-, b, -, ht⟩ | ⟨hcmd, -, ht⟩ := completePending_cases p s
  · exact ⟨_, ht, .inl (by simp [statusOf_values])⟩
  · exact ⟨_, ht, .inl (by simp [statusOf_values])⟩
  · exact ⟨_, ht, .inr ⟨hcmd, by simp [statusOf_values]⟩⟩

/-- A command that is processed is BUSY, and the core sequencer's turn completes it (R33, R34). -/
theorem startCommand_isProcessed (s : State) (i : Instr) (w : Work) :
    (s.clearResult.startCommand i w).statusWord = 0x00000001#32 ∧
      ∃ u, coreTurn (s.clearResult.startCommand i w) = .next u ∧
        (u.statusWord = 0x00000002#32 ∨ (i = .decrypt ∧ u.statusWord = 0x00000012#32)) :=
  ⟨by simp [statusOf_values], completePending_reports { cmd := i, len := s.len, work := w } _⟩

/-- ENCRYPT given to an idle CORE: CAPACITY, then the empty input, then processing, which succeeds (R145, R204). -/
theorem exec_encrypt_inPriorityOrder {s : State} (h : s.idle) :
    ∃ t, exec .encrypt s = .next t ∧
      if 4 * (s.params.maxWords - 1) < s.len.toNat then t.statusWord = 0x00000032#32
      else if s.len = 0#32 then t.statusWord = 0x00000002#32 ∧ t.outlen = 0#32
      else t.statusWord = 0x00000001#32 ∧ ∃ u, coreTurn t = .next u ∧ u.statusWord = 0x00000002#32 := by
  refine ⟨_, exec_encrypt_of_idle h, ?_⟩
  obtain ⟨hcap, ht⟩ | ⟨hempty, ht⟩ | ⟨hfits, hne, ht⟩ := acceptEncrypt_cases s.clearResult
  all_goals simp only [State.clearResult_len, State.clearResult_params] at *
  · rw [ht, if_pos hcap]
    simp [statusOf_values]
  · simp [ht, hempty, statusOf_values]
  · rw [ht, if_neg hfits.not_gt, if_neg hne]
    simpa using startCommand_isProcessed s .encrypt _

/-- DECRYPT given to an idle CORE: CAPACITY, then the empty input, then a part of a word, then processing, which succeeds
or reports MALFORMED (R163, R204). -/
theorem exec_decrypt_inPriorityOrder {s : State} (h : s.idle) :
    ∃ t, exec .decrypt s = .next t ∧
      if 4 * s.params.maxWords < s.len.toNat then t.statusWord = 0x00000032#32
      else if s.len = 0#32 then t.statusWord = 0x00000002#32 ∧ t.outlen = 0#32
      else if s.len.toNat ≤ 3 then t.statusWord = 0x00000012#32
      else t.statusWord = 0x00000001#32 ∧
        ∃ u, coreTurn t = .next u ∧ (u.statusWord = 0x00000002#32 ∨ u.statusWord = 0x00000012#32) := by
  refine ⟨_, exec_decrypt_of_idle h, ?_⟩
  obtain ⟨hcap, ht⟩ | ⟨hempty, ht⟩ | ⟨hfits, hne, hshort, ht⟩ | ⟨hfour, hfits, ht⟩ := acceptDecrypt_cases s.clearResult
  all_goals simp only [State.clearResult_len, State.clearResult_params] at *
  · rw [ht, if_pos hcap]
    simp [statusOf_values]
  · simp [ht, hempty, statusOf_values]
  · rw [ht, if_neg hfits.not_gt, if_neg hne, if_pos (Nat.le_of_lt_succ hshort)]
    simp [statusOf_values]
  · have hne : s.len ≠ 0#32 := by intro hempty; simp [hempty] at hfour
    rw [ht, if_neg hfits.not_gt, if_neg hne, if_neg (by omega)]
    simpa using startCommand_isProcessed s .decrypt _

/-- Settles O37: a word that encodes a command has the outcome of that command, every other word that of R202. -/
theorem oneErrorInPriorityOrder : Obligations.OneErrorInPriorityOrder := by
  intro s c h
  by_cases hword : ∃ i, c = encode i
  · obtain ⟨i, rfl⟩ := hword
    rw [busWrite_encode_of_idle h]
    cases i with
    | encrypt => simpa [encode] using exec_encrypt_inPriorityOrder h
    | decrypt => simpa [encode] using exec_decrypt_inPriorityOrder h
  · have hillegal : ∀ i, c ≠ encode i := not_exists.1 hword
    refine ⟨_, busWrite_illegal_of_idle h hillegal, ?_⟩
    rw [if_pos ⟨hillegal .encrypt, hillegal .decrypt⟩]
    simp [statusOf_values]

end Sys2Proof.Machine
end

section
/-! R143 to R163: the lengths of the two transforms' results. -/

namespace Sys2Proof.Machine

/-- The words ENCRYPT works on: the decoded words and the sentinel (R102). -/
theorem WordCodec.length_decode_true (b : Bytes) : (WordCodec.decode b true).length = (b.length + 3) / 4 + 1 := by
  rw [WordCodec.decode_true, List.length_append, WordCodec.length_decode_false, List.length_singleton]

theorem CipherCore.encrypt_of_nonempty {pt : Bytes} (h : 1 ≤ pt.length) (k : Key) :
    CipherCore.encrypt pt k = WordCodec.unpack (CipherCore.encWords (WordCodec.decode pt true) k) := by
  rw [CipherCore.encrypt, if_neg (by omega)]

theorem CipherCore.decrypt_of_four_le {ct : Bytes} (h : 4 ≤ ct.length) (k : Key) :
    CipherCore.decrypt ct k = WordCodec.encode (CipherCore.decWords (WordCodec.decode ct false) k) true := by
  rw [CipherCore.decrypt, if_neg (by omega), if_neg (by omega)]

theorem CipherCore.decrypt_of_short {ct : Bytes} (h : 1 ≤ ct.length) (h4 : ct.length < 4) (k : Key) :
    CipherCore.decrypt ct k = .error .malformedCiphertext := by
  rw [CipherCore.decrypt, if_neg (by omega), if_pos h4]

/-- `encode` with truncation drops the sentinel's own word at least (R106). -/
theorem WordCodec.length_add_four_le_of_encode_true {ws : Words} {b : Bytes} (h : WordCodec.encode ws true = .ok b) :
    b.length + 4 ≤ 4 * ws.length := by
  obtain rfl | ⟨init, m, rfl⟩ := List.eq_nil_or_concat ws
  · cases h
  · rw [List.concat_eq_append] at h ⊢
    obtain ⟨-, rfl⟩ := WordCodec.encode_append_true_eq_ok_iff.1 h
    simp only [List.length_take, WordCodec.length_unpack, List.length_append, List.length_singleton]
    omega

/-- R146: the length of a ciphertext. -/
theorem CipherCore.length_encrypt {pt : Bytes} (h : 1 ≤ pt.length) (k : Key) :
    (CipherCore.encrypt pt k).length = 4 * ((pt.length + 3) / 4 + 1) := by
  rw [CipherCore.encrypt_of_nonempty h, WordCodec.length_unpack, CipherCore.length_encWords,
    WordCodec.length_decode_true]

/-- A plaintext takes at least one word less than its ciphertext (R163). -/
theorem CipherCore.length_of_decrypt {ct b : Bytes} {k : Key} (h : 1 ≤ ct.length)
    (hok : CipherCore.decrypt ct k = .ok b) : b.length + 4 ≤ 4 * ((ct.length + 3) / 4) := by
  by_cases h4 : ct.length < 4
  · rw [CipherCore.decrypt_of_short h h4] at hok
    cases hok
  · rw [CipherCore.decrypt_of_four_le (Nat.le_of_not_lt h4)] at hok
    simpa only [CipherCore.length_decWords, WordCodec.length_decode_false] using
      WordCodec.length_add_four_le_of_encode_true hok

/-- Settles O19. -/
theorem ciphertextLength : Obligations.CiphertextLength := fun _ k h => CipherCore.length_encrypt h k

/-- Settles O20: dropping the sentinel's word takes away more than the padding added. -/
theorem plaintextIsShorter : Obligations.PlaintextIsShorter := by
  intro ct b k h hok
  have hlen := CipherCore.length_of_decrypt h hok
  omega

end Sys2Proof.Machine
end

section
/-! The invariant of Safety.lean: each operation of Ops keeps it, and a step is one of them (`step_effect`). -/

namespace Sys2Proof.Machine

/-! ### What the invariant says of an idle and of a running CORE -/

/-- CORE alone decides the invariant: the host's side, the turns and the count of draws are no part of it. -/
theorem State.Inv.of_sameCore {s t : State} (hs : s.Inv) (h : s.sameCore t) : t.Inv := by
  rw [h]
  exact { hs with }

theorem State.Inv.pending_eq_none {s : State} (hs : s.Inv) (hbusy : s.busy = false) : s.pending = none := by
  simpa [hbusy] using hs.busyIffPending

theorem State.Inv.inReset_eq_false {s : State} (hs : s.Inv) (hbusy : s.busy = true) : s.inReset = false := by
  by_contra hreset
  obtain ⟨hidle, -⟩ := hs.heldInReset (Bool.eq_true_of_not_eq_false hreset)
  simp [hbusy] at hidle

/-- While an error is reported no command runs, and reset is not asserted (R24, R240). -/
theorem State.Inv.idle_of_err {s : State} (hs : s.Inv) (herr : s.err ≠ .none) : s.idle := by
  have hdone := hs.errOnlyWhenDone herr
  refine ⟨Bool.eq_false_of_not_eq_true fun hbusy => hs.notBusyAndDone ⟨hbusy, hdone⟩, ?_⟩
  refine Bool.eq_false_of_not_eq_true fun hreset => ?_
  obtain ⟨-, hnotDone, -⟩ := hs.heldInReset hreset
  cases hdone.symm.trans hnotDone

/-! ### Acceptance -/

/-- A command that has ended, at once or by its completion, with a result that fits the buffer. -/
theorem State.Inv.of_finished {s t : State} (hs : s.Inv) (hparams : t.params = s.params)
    (hwf : Memory.wf t.data = true) (hdata : ∀ c ∈ t.data, c.1 < 4 * s.params.maxWords) (hbusy : t.busy = false)
    (hdone : t.done = true) (hpending : t.pending = none) (hreset : t.inReset = false)
    (herr : t.err ≠ .none → t.outlen = 0#32) (houtlen : t.outlen.toNat ≤ 4 * s.params.maxWords) : t.Inv where
  params := hparams ▸ hs.params
  memory := hwf
  inBuffer := hparams ▸ hdata
  notBusyAndDone := by simp [hbusy]
  errOnlyWhenDone := fun _ => hdone
  errOutlen := herr
  outlenUntilDone := by simp [hdone]
  outlenInBuffer := hparams ▸ houtlen
  busyIffPending := by simp [hbusy, hpending]
  pendingFits := by simp [hpending]
  heldInReset := by simp [hreset]

theorem State.Inv.finishNow {s : State} (hs : s.Inv) (h : s.idle) (code : ErrCode) : (s.finishNow code).Inv := by
  obtain ⟨hbusy, hreset⟩ := h
  exact hs.of_finished rfl hs.memory hs.inBuffer rfl rfl (hs.pending_eq_none hbusy) hreset (fun _ => rfl)
    (Nat.zero_le _)

theorem State.Inv.startCommand {s : State} (hs : s.Inv) (h : s.idle) {cmd : Instr} {work : Work}
    (hfits : Pending.fits s.params ⟨cmd, s.len, work⟩) : (s.clearResult.startCommand cmd work).Inv where
  params := hs.params
  memory := hs.memory
  inBuffer := hs.inBuffer
  notBusyAndDone := by simp
  errOnlyWhenDone := by simp
  errOutlen := fun _ => rfl
  outlenUntilDone := fun _ => rfl
  outlenInBuffer := Nat.zero_le _
  busyIffPending := rfl
  pendingFits := by
    intro p hp
    obtain rfl : _ = p := Option.some.inj hp
    exact ⟨rfl, hfits⟩
  heldInReset := by
    obtain ⟨-, hreset⟩ := h
    simp [hreset]

theorem State.Inv.acceptEncrypt {s : State} (hs : s.Inv) (h : s.idle) : (acceptEncrypt s.clearResult).Inv := by
  obtain ⟨-, ht⟩ | ⟨-, ht⟩ | ⟨hcap, hne, ht⟩ := acceptEncrypt_cases s.clearResult <;> rw [ht]
  · exact hs.finishNow h .capacity
  · exact hs.finishNow h .none
  · exact hs.startCommand h ⟨Nat.pos_of_ne_zero fun h0 => hne (BitVec.eq_of_toNat_eq h0), hcap⟩

theorem State.Inv.acceptDecrypt {s : State} (hs : s.Inv) (h : s.idle) : (acceptDecrypt s.clearResult).Inv := by
  obtain ⟨-, ht⟩ | ⟨-, ht⟩ | ⟨-, -, -, ht⟩ | ⟨hfour, hcap, ht⟩ := acceptDecrypt_cases s.clearResult <;> rw [ht]
  · exact hs.finishNow h .capacity
  · exact hs.finishNow h .none
  · exact hs.finishNow h .malformed
  · exact hs.startCommand h ⟨hfour, hcap⟩

/-! ### Stores of an idle CORE -/

theorem State.Inv.writeLen {s : State} (hs : s.Inv) (h : s.idle) (w : Word) : (s.writeLen w).Inv := by
  obtain ⟨hbusy, hreset⟩ := h
  exact { hs with
    pendingFits := by simp [hs.pending_eq_none hbusy]
    heldInReset := by simp [hreset] }

theorem State.Inv.writeKey {s : State} (hs : s.Inv) (h : s.idle) (j : Fin 4) (w : Word) : (s.writeKey j w).Inv := by
  obtain ⟨-, hreset⟩ := h
  exact { hs with heldInReset := by simp [hreset] }

theorem State.Inv.writeDataWord {s : State} (hs : s.Inv) (h : s.idle) {i : Nat} (hi : i < s.params.maxWords)
    (w : Word) : (s.writeDataWord i w).Inv := by
  obtain ⟨-, hreset⟩ := h
  have hdata : ∀ c ∈ (s.writeDataWord i w).data, c.1 < 4 * s.params.maxWords := by
    intro c hc
    obtain hnew | hold := Memory.mem_writeBytes _ hc
    · rw [WordCodec.length_bytes32] at hnew
      omega
    · exact hs.inBuffer c hold
  exact { hs with
    memory := State.wf_memWrite _ _ hs.memory
    inBuffer := hdata
    heldInReset := by simp [hreset] }

/-! ### Completion -/

/-- A length that a buffer holds does not grow when OUTLEN has no room for it (notes/assumptions/4). -/
theorem State.lengthWord_le (s : State) (n : Nat) : (s.lengthWord n).toNat ≤ n := by
  rw [State.lengthWord]
  split
  · exact Nat.mod_le _ _
  · have := (Config.freeOutlen s.dataEpoch).isLt
    omega

theorem State.Inv.publish {s : State} (hs : s.Inv) (hbusy : s.busy = true) {b : Bytes}
    (hb : b.length ≤ 4 * s.params.maxWords) : (s.publish b).Inv := by
  refine hs.of_finished rfl (Memory.wf_writeBytes b 0 rfl) (fun c hc => ?_) rfl rfl rfl (hs.inReset_eq_false hbusy)
    (fun herr => absurd rfl herr) ((s.lengthWord_le _).trans hb)
  obtain hnew | hold := Memory.mem_writeBytes _ hc
  · omega
  · cases hold

theorem State.Inv.publishMalformed {s : State} (hs : s.Inv) (hbusy : s.busy = true) : s.publishMalformed.Inv :=
  hs.of_finished rfl rfl (by simp) rfl rfl rfl (hs.inReset_eq_false hbusy) (fun _ => rfl) (Nat.zero_le _)

/-- The result of a pending operation fits the buffer, since its input passed the CAPACITY check (R145, R163). -/
theorem State.Inv.completePending {s t : State} (hs : s.Inv) (hbusy : s.busy = true) {p : Pending}
    (hp : s.pending = some p) (ht : completePending p s = .next t) : t.Inv := by
  have hwords : 2 ≤ s.params.maxWords := by
    have := hs.params
    simp only [Params.wellFormed, Bool.and_eq_true, decide_eq_true_eq] at this
    omega
  have hinput : (s.inputBytes p.len).length = p.len.toNat := s.length_memRead 0 _
  obtain ⟨-, hfits⟩ := hs.pendingFits p hp
  obtain ⟨hcmd, hc⟩ | ⟨hcmd, b, hok, hc⟩ | ⟨-, -, hc⟩ := completePending_cases p s <;>
    rw [hc] at ht <;> cases ht
  · obtain ⟨hpos, hcap⟩ : 1 ≤ p.len.toNat ∧ p.len.toNat ≤ s.params.encryptLimit := by
      simpa only [Pending.fits, hcmd] using hfits
    refine hs.publish hbusy ?_
    rw [CipherCore.length_encrypt (by omega), hinput]
    rw [Params.encryptLimit] at hcap
    omega
  · obtain ⟨hfour, hcap⟩ : 4 ≤ p.len.toNat ∧ p.len.toNat ≤ s.params.decryptLimit := by
      simpa only [Pending.fits, hcmd] using hfits
    have hlen := CipherCore.length_of_decrypt (by omega) hok
    refine hs.publish hbusy ?_
    rw [hinput] at hlen
    rw [Params.decryptLimit] at hcap
    omega
  · exact hs.publishMalformed hbusy

/-- A mix evaluation changes neither the command that runs nor its length. -/
theorem State.Inv.mixPending {s : State} (hs : s.Inv) (hbusy : s.busy = true) {p : Pending} (hp : s.pending = some p)
    (work : Work) : ({ s with pending := some { p with work := work } } : State).Inv := by
  exact { hs with
    busyIffPending := hbusy
    pendingFits := by
      intro q hq
      obtain rfl : _ = q := Option.some.inj hq
      exact hs.pendingFits p hp }

/-! ### Reset -/

/-- The reset values meet the invariant, with the reset input asserted or released (R37, R240). -/
theorem State.Inv.clearAll {s : State} (hs : s.Inv) (r : Bool) : ({ s.clearAll with inReset := r } : State).Inv where
  params := hs.params
  memory := rfl
  inBuffer := by simp
  notBusyAndDone := by simp
  errOnlyWhenDone := by simp
  errOutlen := fun _ => rfl
  outlenUntilDone := fun _ => rfl
  outlenInBuffer := Nat.zero_le _
  busyIffPending := rfl
  pendingFits := by simp
  heldInReset := fun _ => ⟨rfl, rfl, rfl, rfl, rfl⟩

/-! ### Whole steps -/

/-- Settles O50, effect by effect: the state an effect works on has the invariant, since it has the CORE of `s`. -/
theorem stepKeepsInvariant : Obligations.StepKeepsInvariant := by
  intro s t hs hstep
  have idle_of_same {u : State} (hu : s.sameCore u) (hidle : s.idle) : u.idle := by rw [hu]; exact hidle
  cases step_effect hstep with
  | unchanged _ hu => exact hs.of_sameCore hu
  | accepted accept which hidle u hu =>
    obtain rfl | rfl | rfl := which
    · exact (hs.of_sameCore hu).acceptEncrypt (idle_of_same hu hidle)
    · exact (hs.of_sameCore hu).acceptDecrypt (idle_of_same hu hidle)
    · exact (hs.of_sameCore hu).finishNow (idle_of_same hu hidle) .illegalCmd
  | lenWritten w hidle u hu => exact (hs.of_sameCore hu).writeLen (idle_of_same hu hidle) w
  | keyWritten j w hidle u hu => exact (hs.of_sameCore hu).writeKey (idle_of_same hu hidle) j w
  | dataWritten i w hi hidle u hu =>
    exact (hs.of_sameCore hu).writeDataWord (idle_of_same hu hidle) (by rw [hu]; exact hi) w
  | completed p hbusy hp u hu _ ht =>
    exact (hs.of_sameCore hu).completePending (by rw [hu]; exact hbusy) (by rw [hu]; exact hp) ht
  | mixed p hbusy hp u hu =>
    exact (hs.of_sameCore hu).mixPending (by rw [hu]; exact hbusy) (by rw [hu]; exact hp) _
  | resetAsserted u hu => exact (hs.of_sameCore hu).clearAll true
  | resetReleased _ u hu => exact (hs.of_sameCore hu).clearAll false

/-- The constants behind the parameters leave no choice outside R9's constraints. -/
theorem Config.params_wellFormed : Config.params.wellFormed = true := by
  have hmax : Config.maxWordsChoice.val + 2 ≤ 2 ^ 30 := by omega
  simp only [Params.wellFormed, Bool.and_eq_true, decide_eq_true_eq]
  exact ⟨⟨Nat.le_add_left 2 _, hmax⟩, Nat.mul_mod_right 4 _⟩

/-- Settles O49: reset gives no error, no result and nothing pending. -/
theorem resetMeetsInvariant : Obligations.ResetMeetsInvariant := by
  have hinv : State.reset.Inv :=
    { params := Config.params_wellFormed
      memory := Memory.wf_reset
      inBuffer := by simp
      notBusyAndDone := by simp
      errOnlyWhenDone := by simp
      errOutlen := fun _ => rfl
      outlenUntilDone := fun _ => rfl
      outlenInBuffer := Nat.zero_le _
      busyIffPending := rfl
      pendingFits := by simp
      heldInReset := by simp }
  exact ⟨hinv, fun p hp => by cases hp⟩

end Sys2Proof.Machine
end

section
/-! The agreement of the working state with the command that runs (R31, R35): nothing but an acceptance, a mix evaluation
and the end of a command touches the pending operation, and a running command's inputs do not change. -/

namespace Sys2Proof.Machine

/-! ### Mix evaluations in a row -/

/-- `mixTimes` is iteration, so that Mathlib's laws of iteration are its laws. -/
theorem mixTimes_eq_iterate (i : Instr) (k : Key) (j : Nat) (w : Work) : mixTimes i k j w = (mixOnce i k)^[j] w := by
  induction j generalizing w with
  | zero => rfl
  | succ j ih => exact ih (mixOnce i k w)

/-- One more mix evaluation after some number of them. -/
theorem mixTimes_succ (i : Instr) (k : Key) (j : Nat) (w : Work) :
    mixTimes i k (j + 1) w = mixOnce i k (mixTimes i k j w) := by
  rw [mixTimes_eq_iterate, mixTimes_eq_iterate, Function.iterate_succ_apply']

theorem mixTimes_add (i : Instr) (k : Key) (j l : Nat) (w : Work) :
    mixTimes i k (j + l) w = mixTimes i k j (mixTimes i k l w) := by
  simp only [mixTimes_eq_iterate, Function.iterate_add_apply]

/-! ### What the agreement depends on -/

theorem State.workAgrees_of_pending_eq_none {s : State} (h : s.pending = none) : s.WorkAgrees := by
  intro p hp
  rw [h] at hp
  cases hp

/-- The first working state comes from the input bytes alone (R31). -/
theorem State.firstWork_congr {s t : State} (hdata : t.data = s.data) (hepoch : t.dataEpoch = s.dataEpoch)
    (p : Pending) : t.firstWork p = s.firstWork p := by
  obtain ⟨cmd, len, work⟩ := p
  have hinput : t.inputBytes len = s.inputBytes len := State.memRead_congr hdata hepoch 0 _
  cases cmd with
  | encrypt => simp only [State.firstWork, State.encryptWords, hinput]
  | decrypt => simp only [State.firstWork, State.decryptWords, hinput]

theorem State.WorkAgrees.of_sameCore {s t : State} (hs : s.WorkAgrees) (h : s.sameCore t) : t.WorkAgrees := by
  intro p hp
  rw [h] at hp ⊢
  exact hs p hp

/-! ### Acceptance and mix evaluations -/

theorem State.workAgrees_startCommand (s : State) (cmd : Instr) {work : Work}
    (hwork : work = s.firstWork ⟨cmd, s.len, work⟩) : (s.startCommand cmd work).WorkAgrees := by
  intro p hp
  obtain rfl : _ = p := Option.some.inj hp
  refine ⟨0, hwork.trans ?_⟩
  exact (State.firstWork_congr (s := s) (t := s.startCommand cmd work) rfl rfl _).symm

theorem State.workAgrees_acceptEncrypt {s : State} (h : s.pending = none) : (acceptEncrypt s).WorkAgrees := by
  obtain ⟨-, ht⟩ | ⟨-, ht⟩ | ⟨-, -, ht⟩ := acceptEncrypt_cases s <;> rw [ht]
  · exact State.workAgrees_of_pending_eq_none h
  · exact State.workAgrees_of_pending_eq_none h
  · exact s.workAgrees_startCommand .encrypt rfl

theorem State.workAgrees_acceptDecrypt {s : State} (h : s.pending = none) : (acceptDecrypt s).WorkAgrees := by
  obtain ⟨-, ht⟩ | ⟨-, ht⟩ | ⟨-, -, -, ht⟩ | ⟨-, -, ht⟩ := acceptDecrypt_cases s <;> rw [ht]
  · exact State.workAgrees_of_pending_eq_none h
  · exact State.workAgrees_of_pending_eq_none h
  · exact State.workAgrees_of_pending_eq_none h
  · exact s.workAgrees_startCommand .decrypt rfl

/-- A mix evaluation adds one to the number of them. -/
theorem State.WorkAgrees.mixOnce {s : State} (hs : s.WorkAgrees) {p : Pending} (hp : s.pending = some p) :
    ({ s with pending := some { p with work := mixOnce p.cmd s.key p.work } } : State).WorkAgrees := by
  intro q hq
  obtain rfl : _ = q := Option.some.inj hq
  obtain ⟨j, hj⟩ := hs p hp
  refine ⟨j + 1, ?_⟩
  rw [mixTimes_succ]
  exact congrArg _ hj

/-- A completion leaves nothing pending (R34). -/
theorem pending_eq_none_of_completePending {p : Pending} {s t : State} (h : completePending p s = .next t) :
    t.pending = none := by
  obtain ⟨-, ht⟩ | ⟨-, b, -, ht⟩ | ⟨-, -, ht⟩ := completePending_cases p s <;> rw [ht] at h <;> cases h
  · rfl
  · rfl
  · rfl

/-! ### Whole steps -/

/-- Settles O51. The stores and the acceptances are those of an idle CORE, which by the invariant has nothing pending. -/
theorem stepKeepsWorkingStateTrue : Obligations.StepKeepsWorkingStateTrue := by
  intro s t hinv hs hstep
  have nothing_pending (u : State) (hu : s.sameCore u) (hidle : s.idle) : u.pending = none := by
    obtain ⟨hbusy, -⟩ := hidle
    rw [hu]
    exact hinv.pending_eq_none hbusy
  cases step_effect hstep with
  | unchanged _ hu => exact hs.of_sameCore hu
  | accepted accept which hidle u hu =>
    have hnone : u.clearResult.pending = none := nothing_pending u hu hidle
    obtain rfl | rfl | rfl := which
    · exact State.workAgrees_acceptEncrypt hnone
    · exact State.workAgrees_acceptDecrypt hnone
    · exact State.workAgrees_of_pending_eq_none hnone
  | lenWritten w hidle u hu => exact State.workAgrees_of_pending_eq_none (nothing_pending u hu hidle)
  | keyWritten j w hidle u hu => exact State.workAgrees_of_pending_eq_none (nothing_pending u hu hidle)
  | dataWritten i w _ hidle u hu => exact State.workAgrees_of_pending_eq_none (nothing_pending u hu hidle)
  | completed p _ _ u _ _ ht =>
    exact State.workAgrees_of_pending_eq_none (pending_eq_none_of_completePending ht)
  | mixed p _ hp u hu =>
    have hkey : s.key = u.key := by rw [hu]
    rw [hkey]
    exact (hs.of_sameCore hu).mixOnce (by rw [hu]; exact hp)
  | resetAsserted u _ => exact State.workAgrees_of_pending_eq_none rfl
  | resetReleased _ u _ => exact State.workAgrees_of_pending_eq_none rfl

end Sys2Proof.Machine
end

section
/-! R121 to R124, R140 to R143, R160, R161: the mixing function on wide values, the round sums, the selector, and the
`while` loop of decryption. -/

namespace Sys2Proof.Machine

/-! ### mix on naturals -/

/-- Settles O12: reduction modulo 2^32 goes through every sum and every exclusive or, and a left shift of a word is the
wide shift reduced (R123, R124). -/
theorem wideMixReducesToMix : Obligations.WideMixReducesToMix := by
  intro sum y z p e k
  have reduced (w : Word) : w.toNat % 2 ^ 32 = w.toNat := Nat.mod_eq_of_lt w.isLt
  have shifted (w : Word) (j : Nat) : (w.toNat >>> j) % 2 ^ 32 = w.toNat >>> j :=
    Nat.mod_eq_of_lt (lt_of_le_of_lt (Nat.shiftRight_le _ _) w.isLt)
  simp only [MixEngine.mix, BitVec.toNat_xor, BitVec.toNat_add, BitVec.toNat_ushiftRight, BitVec.toNat_shiftLeft]
  simp only [Nat.xor_mod_two_pow, Nat.add_mod _ _ (2 ^ 32), reduced, shifted, Nat.mod_mod]

/-! ### The round sums -/

/-- The sum of round `j`, counted from 1 in encryption: `j` times DELTA (R143, R161). -/
def CipherCore.roundSum (j : Nat) : Word := BitVec.ofNat 32 j * CipherCore.delta

theorem CipherCore.roundSum_zero : CipherCore.roundSum 0 = 0#32 := rfl

theorem CipherCore.decStartSum_eq_roundSum (n : Nat) :
    CipherCore.decStartSum n = CipherCore.roundSum (CipherCore.rounds n) := rfl

theorem CipherCore.roundSum_add (i j : Nat) :
    CipherCore.roundSum (i + j) = CipherCore.roundSum i + CipherCore.roundSum j := by
  simp only [CipherCore.roundSum, BitVec.ofNat_add, add_mul]

theorem CipherCore.roundSum_succ (j : Nat) :
    CipherCore.roundSum (j + 1) = CipherCore.roundSum j + CipherCore.delta := CipherCore.roundSum_add j 1

/-- DELTA is odd, so it has an inverse modulo 2^32 and no multiple of it below 2^32 times is 0 (R161). -/
theorem CipherCore.roundSum_eq_zero_iff {j : Nat} (hj : j < 2 ^ 32) : CipherCore.roundSum j = 0#32 ↔ j = 0 := by
  have inverse : CipherCore.delta * 0x144CBC89#32 = 1#32 := by decide
  constructor
  · intro h
    have hword : BitVec.ofNat 32 j = 0#32 := by
      calc BitVec.ofNat 32 j = CipherCore.roundSum j * 0x144CBC89#32 := by
            rw [CipherCore.roundSum, mul_assoc, inverse, BitVec.mul_one]
        _ = 0#32 := by rw [h, BitVec.zero_mul]
    have hnat := congrArg BitVec.toNat hword
    rwa [BitVec.toNat_ofNat, Nat.mod_eq_of_lt hj] at hnat
  · rintro rfl
    exact CipherCore.roundSum_zero

/-! ### The selector -/

/-- The selector takes bits 3:2 of the sum (R142). -/
theorem CipherCore.toNat_selector (sum : Word) : (CipherCore.selector sum).toNat = sum.toNat / 4 % 4 := by
  rw [CipherCore.selector, BitVec.toNat_and, BitVec.toNat_ushiftRight, Nat.shiftRight_eq_div_pow]
  exact Nat.and_two_pow_sub_one_eq_mod _ 2

/-- Settles O14: the sequence of the rule is 32 evaluations. -/
theorem selectorSequence : Obligations.SelectorSequence := ⟨CipherCore.toNat_selector, by decide⟩

/-! ### The loop of decryption -/

/-- The test of the loop at sum 0 ends it, whatever the bound (R160). -/
theorem CipherCore.decLoop_zero (k : Key) (n fuel : Nat) (vy : Words × Word) :
    CipherCore.decLoop k n fuel 0#32 vy = (0#32, vy) := by
  cases fuel with
  | zero => rfl
  | succ fuel => rw [CipherCore.decLoop, if_pos rfl]

/-- One iteration: a round with the sum, then DELTA is taken from it (R160). -/
theorem CipherCore.decLoop_roundSum_succ (k : Key) (n fuel : Nat) {j : Nat} (hj : j + 1 < 2 ^ 32) (vy : Words × Word) :
    CipherCore.decLoop k n (fuel + 1) (CipherCore.roundSum (j + 1)) vy =
      CipherCore.decLoop k n fuel (CipherCore.roundSum j)
        (CipherCore.decRound k n (CipherCore.roundSum (j + 1)) vy) := by
  have hne : CipherCore.roundSum (j + 1) ≠ 0#32 := by
    rw [Ne, CipherCore.roundSum_eq_zero_iff hj]
    exact Nat.succ_ne_zero j
  have hsub : CipherCore.roundSum (j + 1) - CipherCore.delta = CipherCore.roundSum j := by
    rw [CipherCore.roundSum_succ, BitVec.add_sub_cancel]
  rw [CipherCore.decLoop, if_neg hne, hsub]

/-- From `j` times DELTA the loop makes `j` rounds with the multiples of DELTA from there down, if its bound allows as
many (R161). -/
theorem CipherCore.decLoop_roundSum (k : Key) (n : Nat) {j fuel : Nat} (hj : j < 2 ^ 32) (hfuel : j ≤ fuel)
    (vy : Words × Word) :
    CipherCore.decLoop k n fuel (CipherCore.roundSum j) vy =
      (0#32, (List.range j).foldl (fun a i => CipherCore.decRound k n (CipherCore.roundSum (j - i)) a) vy) := by
  induction j generalizing fuel vy with
  | zero => exact CipherCore.decLoop_zero k n fuel vy
  | succ j ih =>
    obtain ⟨fuel, rfl⟩ := Nat.exists_eq_succ_of_ne_zero (Nat.ne_zero_of_lt hfuel)
    rw [Nat.succ_eq_add_one, CipherCore.decLoop_roundSum_succ k n fuel hj, ih (by omega) (by omega),
      List.range_succ_eq_map, List.foldl_cons, List.foldl_map]
    simp only [Nat.sub_zero, Nat.succ_eq_add_one, Nat.add_sub_add_right]

/-- Settles O15: the sums are the multiples of DELTA from the round count down, none of which is 0 before the last. -/
theorem decryptionLoopRunsRoundCountTimes : Obligations.DecryptionLoopRunsRoundCountTimes := by
  intro n k vy
  have hq : CipherCore.rounds n < 2 ^ 32 := lt_of_le_of_lt (CipherCore.rounds_le n) (by decide)
  refine ⟨fun i hi => ⟨?sum, ?first⟩, ?loop, fun more => ?bound, ?starts⟩
  case sum =>
    have hsum : CipherCore.decStartSum n = CipherCore.roundSum (CipherCore.rounds n - i) + CipherCore.roundSum i := by
      rw [← CipherCore.roundSum_add, Nat.sub_add_cancel hi, CipherCore.decStartSum_eq_roundSum]
    rw [hsum]
    exact BitVec.add_sub_cancel _ _
  case first =>
    refine (CipherCore.roundSum_eq_zero_iff (by omega)).trans ?_
    omega
  case loop => exact CipherCore.decLoop_roundSum k n hq le_rfl vy
  case bound =>
    rw [CipherCore.decStartSum_eq_roundSum, CipherCore.decLoop_roundSum k n hq (Nat.le_add_right _ more),
      CipherCore.decLoop_roundSum k n hq le_rfl]
  case starts =>
    simp only [CipherCore.decStartSum]
    refine ⟨fun h => ?_, fun h => ?_, fun h => ?_⟩ <;> rw [h] <;> decide

end Sys2Proof.Machine
end

section
/-! R125, R143, R160: the two round loops as passes over the buffer. One update of a position, in either direction, reads
the two neighbours of the position in the ring of positions; a round is a sweep of such updates, and `encWords` and
`decWords` are sweeps in a row. Each update undoes its counterpart, so each loop undoes the other. -/

namespace Sys2Proof.Machine

/-! ### One position -/

/-- The position above `p` in the ring of positions 0 to n, where the neighbour `y` stands (R143, R160). -/
def CipherCore.above (n p : Nat) : Nat := if p = n then 0 else p + 1

/-- The position below `p` in the ring of positions 0 to n, where the neighbour `z` stands (R143, R160). -/
def CipherCore.below (n p : Nat) : Nat := if p = 0 then n else p - 1

theorem CipherCore.below_above (n p : Nat) : CipherCore.below n (CipherCore.above n p) = p := by
  unfold CipherCore.above CipherCore.below
  split <;> split <;> omega

theorem CipherCore.above_below {n p : Nat} (hp : p ≤ n) : CipherCore.above n (CipherCore.below n p) = p := by
  unfold CipherCore.above CipherCore.below
  split <;> split <;> omega

/-- The mix of position `p` in a round with the given sum, both neighbours read from the buffer. -/
def CipherCore.mixAt (k : Key) (n : Nat) (sum : Word) (v : Words) (p : Nat) : Word :=
  MixEngine.mix sum (v.getD (CipherCore.above n p) 0#32) (v.getD (CipherCore.below n p) 0#32) p
    (CipherCore.selector sum) k

/-- The update of position `p` in encryption. -/
def CipherCore.encAt (k : Key) (n : Nat) (sum : Word) (p : Nat) (v : Words) : Words :=
  v.set p (v.getD p 0#32 + CipherCore.mixAt k n sum v p)

/-- The update of position `p` in decryption. -/
def CipherCore.decAt (k : Key) (n : Nat) (sum : Word) (p : Nat) (v : Words) : Words :=
  v.set p (v.getD p 0#32 - CipherCore.mixAt k n sum v p)

@[simp] theorem CipherCore.length_encAt (k : Key) (n : Nat) (sum : Word) (p : Nat) (v : Words) :
    (CipherCore.encAt k n sum p v).length = v.length := List.length_set

@[simp] theorem CipherCore.length_decAt (k : Key) (n : Nat) (sum : Word) (p : Nat) (v : Words) :
    (CipherCore.decAt k n sum p v).length = v.length := List.length_set

theorem getD_set_self {v : Words} {p : Nat} (hp : p < v.length) (x : Word) : (v.set p x).getD p 0#32 = x := by
  rw [List.getD_eq_getElem _ _ (by rwa [List.length_set]), List.getElem_set_self]

theorem getD_set_of_ne {p i : Nat} (h : p ≠ i) (v : Words) (x : Word) : (v.set p x).getD i 0#32 = v.getD i 0#32 := by
  rw [List.getD_eq_getElem?_getD, List.getD_eq_getElem?_getD, List.getElem?_set_ne h]

theorem set_getD_self (v : Words) (p : Nat) : v.set p (v.getD p 0#32) = v := by
  by_cases hp : p < v.length
  · rw [List.getD_eq_getElem _ _ hp, List.set_getElem_self]
  · exact List.set_eq_of_length_le (Nat.le_of_not_lt hp)

/-- On two words or more no position is its own neighbour, so writing it leaves its mix alone (R125, R164). -/
theorem CipherCore.mixAt_set (k : Key) {n p : Nat} (hn : 1 ≤ n) (sum : Word) (v : Words) (x : Word) :
    CipherCore.mixAt k n sum (v.set p x) p = CipherCore.mixAt k n sum v p := by
  have habove : p ≠ CipherCore.above n p := by rw [CipherCore.above]; split <;> omega
  have hbelow : p ≠ CipherCore.below n p := by rw [CipherCore.below]; split <;> omega
  rw [CipherCore.mixAt, getD_set_of_ne habove, getD_set_of_ne hbelow, CipherCore.mixAt]

theorem CipherCore.decAt_encAt (k : Key) {n p : Nat} (hn : 1 ≤ n) (sum : Word) {v : Words} (hp : p < v.length) :
    CipherCore.decAt k n sum p (CipherCore.encAt k n sum p v) = v := by
  rw [CipherCore.decAt, CipherCore.encAt, CipherCore.mixAt_set k hn, getD_set_self hp, List.set_set,
    BitVec.add_sub_cancel, set_getD_self]

theorem CipherCore.encAt_decAt (k : Key) {n p : Nat} (hn : 1 ≤ n) (sum : Word) {v : Words} (hp : p < v.length) :
    CipherCore.encAt k n sum p (CipherCore.decAt k n sum p v) = v := by
  rw [CipherCore.encAt, CipherCore.decAt, CipherCore.mixAt_set k hn, getD_set_self hp, List.set_set,
    BitVec.sub_add_cancel, set_getD_self]

/-! ### One sweep -/

/-- The updates of encryption at the listed positions, first one first. -/
def CipherCore.encSweep (k : Key) (n : Nat) (sum : Word) (ps : List Nat) (v : Words) : Words :=
  ps.foldl (fun a p => CipherCore.encAt k n sum p a) v

/-- The updates of decryption at the listed positions, last one first. -/
def CipherCore.decSweep (k : Key) (n : Nat) (sum : Word) (ps : List Nat) (v : Words) : Words :=
  ps.foldr (fun p a => CipherCore.decAt k n sum p a) v

theorem CipherCore.encSweep_cons (k : Key) (n : Nat) (sum : Word) (p : Nat) (ps : List Nat) (v : Words) :
    CipherCore.encSweep k n sum (p :: ps) v = CipherCore.encSweep k n sum ps (CipherCore.encAt k n sum p v) := rfl

theorem CipherCore.decSweep_cons (k : Key) (n : Nat) (sum : Word) (p : Nat) (ps : List Nat) (v : Words) :
    CipherCore.decSweep k n sum (p :: ps) v = CipherCore.decAt k n sum p (CipherCore.decSweep k n sum ps v) := rfl

theorem CipherCore.encSweep_range_succ (k : Key) (n : Nat) (sum : Word) (m : Nat) (v : Words) :
    CipherCore.encSweep k n sum (List.range (m + 1)) v =
      CipherCore.encAt k n sum m (CipherCore.encSweep k n sum (List.range m) v) := by
  rw [CipherCore.encSweep, List.range_succ, List.foldl_concat, CipherCore.encSweep]

@[simp] theorem CipherCore.length_encSweep (k : Key) (n : Nat) (sum : Word) (ps : List Nat) (v : Words) :
    (CipherCore.encSweep k n sum ps v).length = v.length := by
  induction ps generalizing v with
  | nil => rfl
  | cons p ps ih => rw [CipherCore.encSweep_cons, ih, CipherCore.length_encAt]

@[simp] theorem CipherCore.length_decSweep (k : Key) (n : Nat) (sum : Word) (ps : List Nat) (v : Words) :
    (CipherCore.decSweep k n sum ps v).length = v.length := by
  induction ps with
  | nil => rfl
  | cons p ps ih => rw [CipherCore.decSweep_cons, CipherCore.length_decAt, ih]

theorem CipherCore.decSweep_encSweep (k : Key) {n : Nat} (hn : 1 ≤ n) (sum : Word) {ps : List Nat} {v : Words}
    (hps : ∀ p ∈ ps, p < v.length) : CipherCore.decSweep k n sum ps (CipherCore.encSweep k n sum ps v) = v := by
  induction ps generalizing v with
  | nil => rfl
  | cons p ps ih =>
    have hp : p < v.length := hps p List.mem_cons_self
    have htail : ∀ q ∈ ps, q < (CipherCore.encAt k n sum p v).length := by
      rw [CipherCore.length_encAt]
      exact fun q hq => hps q (List.mem_cons_of_mem p hq)
    rw [CipherCore.encSweep_cons, CipherCore.decSweep_cons, ih htail, CipherCore.decAt_encAt k hn sum hp]

theorem CipherCore.encSweep_decSweep (k : Key) {n : Nat} (hn : 1 ≤ n) (sum : Word) {ps : List Nat} {v : Words}
    (hps : ∀ p ∈ ps, p < v.length) : CipherCore.encSweep k n sum ps (CipherCore.decSweep k n sum ps v) = v := by
  induction ps with
  | nil => rfl
  | cons p ps ih =>
    have hp : p < (CipherCore.decSweep k n sum ps v).length := by
      rw [CipherCore.length_decSweep]
      exact hps p List.mem_cons_self
    rw [CipherCore.decSweep_cons, CipherCore.encSweep_cons, CipherCore.encAt_decAt k hn sum hp]
    exact ih fun q hq => hps q (List.mem_cons_of_mem p hq)

/-! ### One round is one sweep -/

/-- The inner positions of a round of encryption; `z` is the word below the next position (R143). -/
theorem CipherCore.encInner_range (k : Key) {n m : Nat} (sum : Word) {v : Words} (hm : m ≤ n)
    (hlen : v.length = n + 1) :
    (List.range m).foldl (fun a p => CipherCore.encInner k sum (CipherCore.selector sum) p a) (v, v.getD n 0#32) =
      (CipherCore.encSweep k n sum (List.range m) v,
        (CipherCore.encSweep k n sum (List.range m) v).getD (CipherCore.below n m) 0#32) := by
  induction m with
  | zero => rfl
  | succ m ih =>
    have hm' : m < (CipherCore.encSweep k n sum (List.range m) v).length := by
      rw [CipherCore.length_encSweep]
      omega
    have habove : CipherCore.above n m = m + 1 := if_neg (by omega)
    rw [List.range_succ, List.foldl_concat, ih (by omega), ← List.range_succ, CipherCore.encSweep_range_succ]
    simp only [CipherCore.encInner, CipherCore.encAt, CipherCore.mixAt, habove]
    rw [show CipherCore.below n (m + 1) = m from rfl, getD_set_self hm']

theorem CipherCore.encRound_eq_encSweep (k : Key) {n : Nat} (sum : Word) {v : Words} (hlen : v.length = n + 1) :
    CipherCore.encRound k n sum (v, v.getD n 0#32) =
      (CipherCore.encSweep k n sum (List.range (n + 1)) v,
        (CipherCore.encSweep k n sum (List.range (n + 1)) v).getD n 0#32) := by
  have hn : n < (CipherCore.encSweep k n sum (List.range n) v).length := by
    rw [CipherCore.length_encSweep]
    omega
  have habove : CipherCore.above n n = 0 := if_pos rfl
  rw [CipherCore.encSweep_range_succ]
  simp only [CipherCore.encRound, CipherCore.encInner_range k sum le_rfl hlen, CipherCore.encAt, CipherCore.mixAt, habove]
  rw [getD_set_self hn]

/-- The inner positions of an iteration of decryption; `y` is the word above the next position (R160). -/
theorem CipherCore.decInner_range (k : Key) {n m : Nat} (sum : Word) {v : Words} (hm : m ≤ n)
    (hlen : v.length = n + 1) :
    (List.range m).foldr (fun i a => CipherCore.decInner k sum (CipherCore.selector sum) (i + 1) a)
        (v, v.getD (CipherCore.above n m) 0#32) =
      (CipherCore.decSweep k n sum (List.range' 1 m) v,
        (CipherCore.decSweep k n sum (List.range' 1 m) v).getD (CipherCore.above n 0) 0#32) := by
  induction m generalizing v with
  | zero => rfl
  | succ m ih =>
    have hstep : CipherCore.decInner k sum (CipherCore.selector sum) (m + 1)
          (v, v.getD (CipherCore.above n (m + 1)) 0#32) =
        (CipherCore.decAt k n sum (m + 1) v,
          (CipherCore.decAt k n sum (m + 1) v).getD (CipherCore.above n m) 0#32) := by
      have habove : CipherCore.above n m = m + 1 := if_neg (by omega)
      simp only [CipherCore.decInner, CipherCore.decAt, CipherCore.mixAt, habove]
      rw [show CipherCore.below n (m + 1) = m from rfl, getD_set_self (by omega), Nat.add_sub_cancel]
    rw [List.range_succ, List.foldr_concat, hstep, ih (by omega) (by rwa [CipherCore.length_decAt]),
      List.range'_1_concat, CipherCore.decSweep, CipherCore.decSweep, List.foldr_concat, Nat.add_comm 1 m]

theorem CipherCore.decRound_eq_decSweep (k : Key) {n : Nat} (sum : Word) {v : Words} (hlen : v.length = n + 1) :
    CipherCore.decRound k n sum (v, v.getD 0 0#32) =
      (CipherCore.decSweep k n sum (List.range (n + 1)) v,
        (CipherCore.decSweep k n sum (List.range (n + 1)) v).getD 0 0#32) := by
  have hinner := CipherCore.decInner_range k sum le_rfl hlen
  rw [show CipherCore.above n n = 0 from if_pos rfl] at hinner
  have hpos : 0 < (CipherCore.decSweep k n sum (List.range' 1 n) v).length := by
    rw [CipherCore.length_decSweep]
    omega
  rw [List.range_eq_range', List.range'_succ, CipherCore.decSweep_cons]
  simp only [CipherCore.decRound, hinner, CipherCore.decAt, CipherCore.mixAt]
  rw [show CipherCore.below n 0 = n from rfl, getD_set_self hpos]

/-! ### The loops are sweeps in a row -/

/-- The first `j` rounds of encryption, with the sums of R143. -/
def CipherCore.encPass (k : Key) (n : Nat) : Nat → Words → Words
  | 0, v => v
  | j + 1, v => CipherCore.encSweep k n (CipherCore.roundSum (j + 1)) (List.range (n + 1)) (CipherCore.encPass k n j v)

/-- The last `j` iterations of decryption, with the sums of R161. -/
def CipherCore.decPass (k : Key) (n : Nat) : Nat → Words → Words
  | 0, v => v
  | j + 1, v => CipherCore.decPass k n j (CipherCore.decSweep k n (CipherCore.roundSum (j + 1)) (List.range (n + 1)) v)

@[simp] theorem CipherCore.length_encPass (k : Key) (n j : Nat) (v : Words) :
    (CipherCore.encPass k n j v).length = v.length := by
  induction j with
  | zero => rfl
  | succ j ih => rw [CipherCore.encPass, CipherCore.length_encSweep, ih]

/-- `q` more rounds after `j` of them. -/
theorem CipherCore.encRounds_eq_encPass (k : Key) {n : Nat} (q j : Nat) {v : Words} (hlen : v.length = n + 1) :
    CipherCore.encRounds k n q (CipherCore.roundSum j)
        (CipherCore.encPass k n j v, (CipherCore.encPass k n j v).getD n 0#32) =
      (CipherCore.encPass k n (j + q) v, (CipherCore.encPass k n (j + q) v).getD n 0#32) := by
  induction q generalizing j with
  | zero => rfl
  | succ q ih =>
    have hround := CipherCore.encRound_eq_encSweep k (CipherCore.roundSum (j + 1))
      (v := CipherCore.encPass k n j v) (by rwa [CipherCore.length_encPass])
    rw [CipherCore.encRounds, ← CipherCore.roundSum_succ, hround, ← CipherCore.encPass, ih (j + 1), Nat.add_right_comm,
      Nat.add_assoc]

theorem CipherCore.decLoop_eq_decPass (k : Key) {n j fuel : Nat} (hj : j < 2 ^ 32) (hfuel : j ≤ fuel) {v : Words}
    (hlen : v.length = n + 1) :
    CipherCore.decLoop k n fuel (CipherCore.roundSum j) (v, v.getD 0 0#32) =
      (0#32, (CipherCore.decPass k n j v, (CipherCore.decPass k n j v).getD 0 0#32)) := by
  induction j generalizing fuel v with
  | zero => exact CipherCore.decLoop_zero k n fuel _
  | succ j ih =>
    obtain ⟨fuel, rfl⟩ := Nat.exists_eq_succ_of_ne_zero (Nat.ne_zero_of_lt hfuel)
    rw [Nat.succ_eq_add_one, CipherCore.decLoop_roundSum_succ k n fuel hj, CipherCore.decRound_eq_decSweep k _ hlen,
      ih (by omega) (by omega) (by rwa [CipherCore.length_decSweep]), CipherCore.decPass]

theorem CipherCore.encWords_eq_encPass (k : Key) {v : Words} (h : 1 ≤ v.length) :
    CipherCore.encWords v k = CipherCore.encPass k (v.length - 1) (CipherCore.rounds (v.length - 1)) v := by
  have hrounds := CipherCore.encRounds_eq_encPass k (CipherCore.rounds (v.length - 1)) 0
    (Nat.sub_add_cancel h).symm
  rw [Nat.zero_add] at hrounds
  exact congrArg Prod.fst hrounds

theorem CipherCore.decWords_eq_decPass (k : Key) {v : Words} (h : 1 ≤ v.length) :
    CipherCore.decWords v k = CipherCore.decPass k (v.length - 1) (CipherCore.rounds (v.length - 1)) v := by
  have hq : CipherCore.rounds (v.length - 1) < 2 ^ 32 := lt_of_le_of_lt (CipherCore.rounds_le _) (by decide)
  have hloop := CipherCore.decLoop_eq_decPass k hq le_rfl (Nat.sub_add_cancel h).symm
  exact congrArg (fun a => a.2.1) hloop

/-! ### Each loop undoes the other -/

theorem CipherCore.decPass_encPass (k : Key) {n : Nat} (hn : 1 ≤ n) (j : Nat) {v : Words} (hlen : v.length = n + 1) :
    CipherCore.decPass k n j (CipherCore.encPass k n j v) = v := by
  induction j with
  | zero => rfl
  | succ j ih =>
    rw [CipherCore.encPass, CipherCore.decPass, CipherCore.decSweep_encSweep k hn, ih]
    simp [hlen]

theorem CipherCore.encPass_decPass (k : Key) {n : Nat} (hn : 1 ≤ n) (j : Nat) {v : Words} (hlen : v.length = n + 1) :
    CipherCore.encPass k n j (CipherCore.decPass k n j v) = v := by
  induction j generalizing v with
  | zero => rfl
  | succ j ih =>
    rw [CipherCore.decPass, CipherCore.encPass, ih (by rwa [CipherCore.length_decSweep]),
      CipherCore.encSweep_decSweep k hn]
    simp [hlen]

theorem CipherCore.decWords_encWords {v : Words} (k : Key) (h : 2 ≤ v.length) :
    CipherCore.decWords (CipherCore.encWords v k) k = v := by
  rw [CipherCore.decWords_eq_decPass k (by rw [CipherCore.length_encWords]; omega), CipherCore.length_encWords,
    CipherCore.encWords_eq_encPass k (by omega)]
  exact CipherCore.decPass_encPass k (by omega) _ (by omega)

theorem CipherCore.encWords_decWords {v : Words} (k : Key) (h : 2 ≤ v.length) :
    CipherCore.encWords (CipherCore.decWords v k) k = v := by
  rw [CipherCore.encWords_eq_encPass k (by rw [CipherCore.length_decWords]; omega), CipherCore.length_decWords,
    CipherCore.decWords_eq_decPass k (by omega)]
  exact CipherCore.encPass_decPass k (by omega) _ (by omega)

/-- Settles O16. -/
theorem roundLoopsAreInverse : Obligations.RoundLoopsAreInverse := fun _ k h =>
  ⟨CipherCore.decWords_encWords k h, CipherCore.encWords_decWords k h⟩

end Sys2Proof.Machine
end

section
/-! R162 to R167: `decrypt` on what `encrypt` made, on any words with a sentinel in range, and on one word. -/

namespace Sys2Proof.Machine

/-! ### Words as bytes and back -/

/-- Packing the unpacked words gives them back (R100, R101). -/
theorem WordCodec.packGroups_unpack (ws : Words) : WordCodec.packGroups (WordCodec.unpack ws) = ws := by
  induction ws with
  | nil => rfl
  | cons w ws ih =>
    calc WordCodec.packGroups (WordCodec.bytes32 w ++ WordCodec.unpack ws)
        = WordCodec.le32 (WordCodec.byteOf w 0) (WordCodec.byteOf w 1) (WordCodec.byteOf w 2) (WordCodec.byteOf w 3) ::
            WordCodec.packGroups (WordCodec.unpack ws) := rfl
      _ = w :: ws := by rw [WordCodec.le32_byteOf, ih]

theorem WordCodec.decode_unpack (ws : Words) : WordCodec.decode (WordCodec.unpack ws) false = ws := by
  rw [WordCodec.decode_of_dvd (by rw [WordCodec.length_unpack]; exact Nat.dvd_mul_right 4 _),
    WordCodec.packGroups_unpack]

/-- The bytes of the decoded words begin with the bytes decoded (R101). -/
theorem WordCodec.take_unpack_decode (b : Bytes) :
    (WordCodec.unpack (WordCodec.decode b false)).take b.length = b := by
  rw [WordCodec.unpack_decode_false, WordCodec.pad, List.take_left]

/-! ### Two words or more -/

/-- Decrypting the words that the encryption loop makes is the sentinel check of the words it was given (R125, R162). -/
theorem CipherCore.decrypt_unpack_encWords {v : Words} (h : 2 ≤ v.length) (k : Key) :
    CipherCore.decrypt (WordCodec.unpack (CipherCore.encWords v k)) k = WordCodec.encode v true := by
  rw [CipherCore.decrypt_of_four_le, WordCodec.decode_unpack, CipherCore.decWords_encWords k h]
  rw [WordCodec.length_unpack, CipherCore.length_encWords]
  omega

/-- Settles O23: no part of `decrypt` looks at the bytes past the sentinel's length. -/
theorem anyInRangeSentinelIsAccepted : Obligations.AnyInRangeSentinelIsAccepted := by
  intro ws m k hws hlow hhigh
  have hlen : 2 ≤ (ws ++ [m]).length := by
    rw [List.length_append, List.length_singleton]
    omega
  rw [CipherCore.decrypt_unpack_encWords hlen, WordCodec.encode_append_true_eq_ok_iff, WordCodec.sentinelInRange_succ]
  exact ⟨⟨by omega, by omega⟩, rfl⟩

/-- R165, for every byte string whose length a sentinel can hold. -/
theorem CipherCore.decrypt_encrypt (pt : Bytes) (k : Key) (h : pt.length < 2 ^ 32) :
    CipherCore.decrypt (CipherCore.encrypt pt k) k = .ok pt := by
  obtain rfl | hne := pt.eq_nil_or_concat
  · rfl
  · have hpos : 1 ≤ pt.length := by
      obtain ⟨init, b, rfl⟩ := hne
      simp
    have hm : (BitVec.ofNat 32 pt.length).toNat = pt.length := Nat.mod_eq_of_lt h
    have hdata := WordCodec.length_decode_false pt
    rw [CipherCore.encrypt_of_nonempty hpos, WordCodec.decode_true]
    rw [anyInRangeSentinelIsAccepted _ _ k (by omega) (by omega) (by omega), hm, WordCodec.take_unpack_decode]

/-- Settles O21: a buffer of at most 2^30 words holds no plaintext longer than a sentinel can say. -/
theorem decryptUndoesEncrypt : Obligations.DecryptUndoesEncrypt := by
  intro c pt k hc hpt
  simp only [Params.wellFormed, Bool.and_eq_true, decide_eq_true_eq] at hc
  exact CipherCore.decrypt_encrypt pt k (by omega)

/-! ### One word -/

/-- With one word both neighbours are the word itself (R164). -/
theorem CipherCore.decRound_singleton (k : Key) (sum a : Word) :
    CipherCore.decRound k 0 sum ([a], a) =
      ([a - MixEngine.mix sum a a 0 (CipherCore.selector sum) k],
        a - MixEngine.mix sum a a 0 (CipherCore.selector sum) k) := rfl

/-- Any number of iterations on one word (R164). -/
theorem CipherCore.foldl_decRound_singleton (k : Key) (sums : Nat → Word) (is : List Nat) (a : Word) :
    is.foldl (fun vy i => CipherCore.decRound k 0 (sums i) vy) ([a], a) =
      ([is.foldl (fun a i => a - MixEngine.mix (sums i) a a 0 (CipherCore.selector (sums i)) k) a],
        is.foldl (fun a i => a - MixEngine.mix (sums i) a a 0 (CipherCore.selector (sums i)) k) a) := by
  induction is generalizing a with
  | nil => rfl
  | cons i is ih => rw [List.foldl_cons, CipherCore.decRound_singleton, ih, List.foldl_cons]

/-- `decWords` of one word, whose round count is 58, by the loop of O15 (R161, R164). -/
theorem CipherCore.decWords_singleton (w : Word) (k : Key) :
    CipherCore.decWords [w] k =
      [(List.range 58).foldl (fun a i => a - MixEngine.mix (CipherCore.roundSum (58 - i)) a a 0
        (CipherCore.selector (CipherCore.roundSum (58 - i))) k) w] := by
  have hn : [w].length - 1 = 0 := rfl
  have hq : CipherCore.rounds 0 = 58 := rfl
  rw [CipherCore.decWords, hn, List.getD_cons_zero, CipherCore.decStartSum_eq_roundSum, hq,
    CipherCore.decLoop_roundSum k 0 (by decide) le_rfl, CipherCore.foldl_decRound_singleton]

/-- One word passes the sentinel check only as 0 (R106). -/
theorem WordCodec.encode_singleton_true (x : Word) :
    WordCodec.encode [x] true = if x = 0#32 then .ok [] else .error .malformedCiphertext := by
  have hrange : WordCodec.sentinelInRange (0 + 1) x = true ↔ x = 0#32 := by
    rw [WordCodec.sentinelInRange_succ, ← BitVec.toNat_inj, BitVec.toNat_zero]
    omega
  have hencode := WordCodec.encode_append_true [] x
  rw [List.nil_append, List.length_nil] at hencode
  rw [hencode, WordCodec.unpack, List.take_nil]
  simp only [hrange]

/-- Settles O22: the loop at one word and the sentinel check of its result. -/
theorem oneWordCiphertext : Obligations.OneWordCiphertext := by
  intro b0 b1 b2 b3 k w x
  have hwords : CipherCore.decWords [w] k = [x] := by
    rw [CipherCore.decWords_singleton]
    rfl
  refine ⟨hwords, ?_⟩
  have hdecode : WordCodec.decode [b0, b1, b2, b3] false = [w] := by
    rw [WordCodec.decode_of_dvd (by simp)]
    simp [WordCodec.packGroups, w]
  rw [CipherCore.decrypt_of_four_le (by simp), hdecode, hwords, WordCodec.encode_singleton_true]

end Sys2Proof.Machine
end

section
/-! R147, R166, R250: the working state of a running command, one mix evaluation at a time. Within a round the buffer is a
part of a sweep, so `n + 1` evaluations are one sweep, and `q` times as many are the round loop. -/

namespace Sys2Proof.Machine

/-! ### The scalars of the working state as numbers -/

theorem ofNat_inj_of_lt {i j : Nat} (hi : i < 2 ^ 32) (hj : j < 2 ^ 32) :
    BitVec.ofNat 32 i = BitVec.ofNat 32 j ↔ i = j := by
  rw [← BitVec.toNat_inj, BitVec.toNat_ofNat, BitVec.toNat_ofNat, Nat.mod_eq_of_lt hi, Nat.mod_eq_of_lt hj]

/-- What a working state of either direction is in the middle of a command: the buffer holds `v`, `r` rounds are
complete, and position `i` is the next to be updated (R31). -/
structure Work.At (w : Work) (v : Words) (r i : Nat) : Prop where
  buffer : w.v = v
  lastIndex : w.n = CipherCore.lastIndex v
  roundCount : w.q = CipherCore.roundCount v
  rounds : w.round = BitVec.ofNat 32 r
  position : w.p = BitVec.ofNat 32 i

section At
variable {w : Work} {v : Words} {r i : Nat} (h : w.At v r i)
include h

theorem Work.At.toNat_round (hr : r ≤ CipherCore.rounds (v.length - 1)) : w.round.toNat = r := by
  have hq := CipherCore.rounds_le (v.length - 1)
  rw [h.rounds, BitVec.toNat_ofNat, Nat.mod_eq_of_lt (by omega)]

theorem Work.At.round_lt (hr : r < CipherCore.rounds (v.length - 1)) : w.round < w.q := by
  rwa [BitVec.lt_def, h.toNat_round hr.le, h.roundCount, CipherCore.toNat_roundCount]

theorem Work.At.toNat_n (hlen : v.length ≤ 2 ^ 32) : w.n.toNat = v.length - 1 := by
  rw [h.lastIndex, CipherCore.toNat_lastIndex hlen]

variable (hi : i < v.length) (hlen : v.length ≤ 2 ^ 32)
include hi hlen

theorem Work.At.toNat_p : w.p.toNat = i := by
  rw [h.position, BitVec.toNat_ofNat, Nat.mod_eq_of_lt (hi.trans_le hlen)]

theorem Work.At.p_eq_zero_iff : w.p = 0#32 ↔ i = 0 := by
  rw [h.position]
  exact ofNat_inj_of_lt (hi.trans_le hlen) (by decide)

theorem Work.At.p_eq_n_iff : w.p = w.n ↔ i = v.length - 1 := by
  rw [h.position, h.lastIndex]
  exact ofNat_inj_of_lt (hi.trans_le hlen) (by omega)

/-- The position above, as the working state counts it. -/
theorem Work.At.next_above :
    (if w.p = w.n then 0#32 else w.p + 1#32) = BitVec.ofNat 32 (CipherCore.above (v.length - 1) i) := by
  simp only [h.p_eq_n_iff hi hlen]
  rw [CipherCore.above, apply_ite (BitVec.ofNat 32), h.position, BitVec.ofNat_add]

/-- The position below, as the working state counts it. -/
theorem Work.At.next_below :
    (if w.p = 0#32 then w.n else w.p - 1#32) = BitVec.ofNat 32 (CipherCore.below (v.length - 1) i) := by
  simp only [h.p_eq_zero_iff hi hlen]
  rw [CipherCore.below, apply_ite (BitVec.ofNat 32), h.position, h.lastIndex]
  split
  · rfl
  · next hne =>
    obtain ⟨i, rfl⟩ := Nat.exists_eq_succ_of_ne_zero hne
    rw [Nat.succ_eq_add_one, BitVec.ofNat_add, Nat.add_sub_cancel]
    exact BitVec.add_sub_cancel _ _

end At

/-! ### Encryption -/

/-- An encryption's working state: besides the position, `z` is the word below it, and the sum and the selector of round
`r + 1` are formed at its position 0 (R147). -/
structure Work.EncAt (w : Work) (v : Words) (r i : Nat) : Prop extends w.At v r i where
  z : w.z = v.getD (CipherCore.below (v.length - 1) i) 0#32
  sum : w.sum = CipherCore.roundSum (if i = 0 then r else r + 1)
  e : i ≠ 0 → w.e = CipherCore.selector (CipherCore.roundSum (r + 1))

theorem CipherCore.encAt_encStart (v : Words) : (CipherCore.encStart v).EncAt v 0 0 where
  buffer := rfl
  lastIndex := rfl
  roundCount := rfl
  rounds := rfl
  position := rfl
  z := rfl
  sum := rfl
  e := fun h => absurd rfl h

section EncMix
variable {w : Work} {v : Words} {r i : Nat} (h : w.EncAt v r i) (k : Key) (hi : i < v.length)
  (hlen : v.length ≤ 2 ^ 32) (hr : r < CipherCore.rounds (v.length - 1))
include h hi hlen hr

/-- A mix evaluation of encryption, with the round's sum and selector and both neighbours as R143 has them. -/
theorem Work.EncAt.encMix_eq :
    CipherCore.encMix k w = { w with
      v := CipherCore.encAt k (v.length - 1) (CipherCore.roundSum (r + 1)) i v
      sum := CipherCore.roundSum (r + 1)
      y := v.getD (CipherCore.above (v.length - 1) i) 0#32
      z := v.getD i 0#32 + CipherCore.mixAt k (v.length - 1) (CipherCore.roundSum (r + 1)) v i
      e := CipherCore.selector (CipherCore.roundSum (r + 1))
      p := BitVec.ofNat 32 (CipherCore.above (v.length - 1) i)
      round := BitVec.ofNat 32 (if i = v.length - 1 then r + 1 else r) } := by
  have hsum : (if w.p = 0#32 then w.sum + CipherCore.delta else w.sum) = CipherCore.roundSum (r + 1) := by
    simp only [h.p_eq_zero_iff hi hlen, h.sum]
    split
    · exact (CipherCore.roundSum_succ r).symm
    · rfl
  have he : (if w.p = 0#32 then CipherCore.selector (CipherCore.roundSum (r + 1)) else w.e) =
      CipherCore.selector (CipherCore.roundSum (r + 1)) := by
    simp only [h.p_eq_zero_iff hi hlen]
    split
    · rfl
    · next hne => exact h.e hne
  have hy : (if w.p = w.n then v.getD 0 0#32 else v.getD (i + 1) 0#32) =
      v.getD (CipherCore.above (v.length - 1) i) 0#32 := by
    simp only [h.p_eq_n_iff hi hlen, CipherCore.above]
    split <;> rfl
  have hround : (if w.p = w.n then w.round + 1#32 else w.round) =
      BitVec.ofNat 32 (if i = v.length - 1 then r + 1 else r) := by
    simp only [h.p_eq_n_iff hi hlen, h.rounds]
    rw [apply_ite (BitVec.ofNat 32), BitVec.ofNat_add]
  rw [CipherCore.encMix, if_pos (h.round_lt hr)]
  simp only [h.next_above hi hlen, h.toNat_p hi hlen, h.buffer, hsum, he, hy, h.z, hround]
  rfl

/-- A mix evaluation of encryption updates the position and goes on to the one above it; at position n the round is
complete (R147). -/
theorem Work.EncAt.encMix :
    (CipherCore.encMix k w).EncAt (CipherCore.encAt k (v.length - 1) (CipherCore.roundSum (r + 1)) i v)
      (if i = v.length - 1 then r + 1 else r) (CipherCore.above (v.length - 1) i) := by
  rw [h.encMix_eq k hi hlen hr]
  constructor
  case toAt =>
    refine ⟨rfl, ?_, ?_, rfl, rfl⟩
    · rw [h.lastIndex, CipherCore.lastIndex, CipherCore.lastIndex, CipherCore.length_encAt]
    · rw [h.roundCount, CipherCore.roundCount, CipherCore.roundCount, CipherCore.length_encAt]
  case z => rw [CipherCore.length_encAt, CipherCore.below_above, CipherCore.encAt, getD_set_self hi]
  case sum =>
    simp only [CipherCore.above]
    split <;> rfl
  case e =>
    simp only [CipherCore.above]
    split
    · exact fun h0 => absurd rfl h0
    · exact fun _ => rfl

end EncMix

/-- `m` mix evaluations from the beginning of a round update its first `m` positions. -/
theorem Work.EncAt.mixTimes_range {w : Work} {v : Words} {r m : Nat} (h : w.EncAt v r 0) (k : Key) (hm : m < v.length)
    (hlen : v.length ≤ 2 ^ 32) (hr : r < CipherCore.rounds (v.length - 1)) :
    (mixTimes .encrypt k m w).EncAt
      (CipherCore.encSweep k (v.length - 1) (CipherCore.roundSum (r + 1)) (List.range m) v) r m := by
  induction m with
  | zero => exact h
  | succ m ih =>
    have hne : m ≠ v.length - 1 := by omega
    have hnext := (ih (by omega)).encMix k (by rw [CipherCore.length_encSweep]; omega)
      (by rwa [CipherCore.length_encSweep]) (by rwa [CipherCore.length_encSweep])
    rw [CipherCore.length_encSweep, if_neg hne, CipherCore.above, if_neg hne] at hnext
    rw [mixTimes_succ, CipherCore.encSweep_range_succ]
    exact hnext

/-- As many mix evaluations as there are positions make a round (R147). -/
theorem Work.EncAt.mixTimes_round {w : Work} {v : Words} {r : Nat} (h : w.EncAt v r 0) (k : Key) (hpos : 1 ≤ v.length)
    (hlen : v.length ≤ 2 ^ 32) (hr : r < CipherCore.rounds (v.length - 1)) :
    (mixTimes .encrypt k v.length w).EncAt
      (CipherCore.encSweep k (v.length - 1) (CipherCore.roundSum (r + 1)) (List.range v.length) v) (r + 1) 0 := by
  obtain ⟨n, hn⟩ : ∃ n, v.length = n + 1 := ⟨v.length - 1, by omega⟩
  have hlast := (h.mixTimes_range k (m := n) (by omega) hlen hr).encMix k (by rw [CipherCore.length_encSweep]; omega)
    (by rwa [CipherCore.length_encSweep]) (by rwa [CipherCore.length_encSweep])
  rw [CipherCore.length_encSweep, hn, Nat.add_sub_cancel, if_pos rfl, CipherCore.above, if_pos rfl] at hlast
  rw [hn, Nat.add_sub_cancel, mixTimes_succ, CipherCore.encSweep_range_succ]
  exact hlast

theorem CipherCore.encAt_mixTimes (k : Key) {v : Words} (hpos : 1 ≤ v.length) (hlen : v.length ≤ 2 ^ 32) {r : Nat}
    (hr : r ≤ CipherCore.rounds (v.length - 1)) :
    (mixTimes .encrypt k (r * v.length) (CipherCore.encStart v)).EncAt
      (CipherCore.encPass k (v.length - 1) r v) r 0 := by
  induction r with
  | zero =>
    rw [Nat.zero_mul]
    exact CipherCore.encAt_encStart v
  | succ r ih =>
    have hround := (ih (by omega)).mixTimes_round k (by rwa [CipherCore.length_encPass])
      (by rwa [CipherCore.length_encPass]) (by rw [CipherCore.length_encPass]; omega)
    rw [CipherCore.length_encPass] at hround
    rw [Nat.succ_mul, Nat.add_comm, mixTimes_add, CipherCore.encPass, Nat.sub_add_cancel hpos]
    exact hround

/-- Settles O17: after `q` rounds the buffer is the pass that `encWords` is. -/
theorem encryptWorkingStateComputesEncWords : Obligations.EncryptWorkingStateComputesEncWords := by
  intro v k htwo hlen
  have hpos : 1 ≤ v.length := by omega
  have hend := CipherCore.encAt_mixTimes k hpos hlen le_rfl
  refine ⟨?_, hend.toNat_round (by rw [CipherCore.length_encPass])⟩
  rw [hend.buffer, CipherCore.encWords_eq_encPass k hpos]

/-! ### Decryption -/

/-- A decryption's working state: besides the position, `y` is the word above it, the sum is that of the iteration, and
its selector is formed at position n (R166). -/
structure Work.DecAt (w : Work) (v : Words) (r i : Nat) : Prop extends w.At v r i where
  y : w.y = v.getD (CipherCore.above (v.length - 1) i) 0#32
  sum : w.sum = CipherCore.roundSum (CipherCore.rounds (v.length - 1) - r)
  e : i ≠ v.length - 1 → w.e = CipherCore.selector (CipherCore.roundSum (CipherCore.rounds (v.length - 1) - r))

theorem CipherCore.decAt_decStart (v : Words) : (CipherCore.decStart v).DecAt v 0 (v.length - 1) where
  buffer := rfl
  lastIndex := rfl
  roundCount := rfl
  rounds := rfl
  position := rfl
  y := by rw [CipherCore.above, if_pos rfl]; rfl
  sum := rfl
  e := fun h => absurd rfl h

section DecMix
variable {w : Work} {v : Words} {r i : Nat} (h : w.DecAt v r i) (k : Key) (hi : i < v.length)
  (hlen : v.length ≤ 2 ^ 32) (hr : r < CipherCore.rounds (v.length - 1))
include h hi hlen hr

/-- A mix evaluation of decryption, with the iteration's selector and both neighbours as R160 has them. -/
theorem Work.DecAt.decMix_eq :
    CipherCore.decMix k w = { w with
      v := CipherCore.decAt k (v.length - 1) (CipherCore.roundSum (CipherCore.rounds (v.length - 1) - r)) i v
      sum := CipherCore.roundSum (CipherCore.rounds (v.length - 1) - if i = 0 then r + 1 else r)
      y := v.getD i 0#32 -
        CipherCore.mixAt k (v.length - 1) (CipherCore.roundSum (CipherCore.rounds (v.length - 1) - r)) v i
      z := v.getD (CipherCore.below (v.length - 1) i) 0#32
      e := CipherCore.selector (CipherCore.roundSum (CipherCore.rounds (v.length - 1) - r))
      p := BitVec.ofNat 32 (CipherCore.below (v.length - 1) i)
      round := BitVec.ofNat 32 (if i = 0 then r + 1 else r) } := by
  have hsum : (if w.p = 0#32 then w.sum - CipherCore.delta else w.sum) =
      CipherCore.roundSum (CipherCore.rounds (v.length - 1) - if i = 0 then r + 1 else r) := by
    simp only [h.p_eq_zero_iff hi hlen, h.sum]
    split
    · have hsub : CipherCore.rounds (v.length - 1) - r = CipherCore.rounds (v.length - 1) - (r + 1) + 1 := by omega
      rw [hsub, CipherCore.roundSum_succ, BitVec.add_sub_cancel]
    · rfl
  have he : (if w.p = w.n then CipherCore.selector w.sum else w.e) =
      CipherCore.selector (CipherCore.roundSum (CipherCore.rounds (v.length - 1) - r)) := by
    simp only [h.p_eq_n_iff hi hlen, h.sum]
    split
    · rfl
    · next hne => exact h.e hne
  have hz : (if w.p = 0#32 then v.getD (v.length - 1) 0#32 else v.getD (i - 1) 0#32) =
      v.getD (CipherCore.below (v.length - 1) i) 0#32 := by
    simp only [h.p_eq_zero_iff hi hlen, CipherCore.below]
    split <;> rfl
  have hround : (if w.p = 0#32 then w.round + 1#32 else w.round) = BitVec.ofNat 32 (if i = 0 then r + 1 else r) := by
    simp only [h.p_eq_zero_iff hi hlen, h.rounds]
    rw [apply_ite (BitVec.ofNat 32), BitVec.ofNat_add]
  rw [CipherCore.decMix, if_pos (h.round_lt hr)]
  simp only [h.next_below hi hlen, h.toNat_p hi hlen, h.toNat_n hlen, h.buffer, hsum, he, hz, h.y, hround]
  rw [h.sum]
  rfl

/-- A mix evaluation of decryption updates the position and goes on to the one below it; at position 0 the iteration is
complete (R166). -/
theorem Work.DecAt.decMix :
    (CipherCore.decMix k w).DecAt
      (CipherCore.decAt k (v.length - 1) (CipherCore.roundSum (CipherCore.rounds (v.length - 1) - r)) i v)
      (if i = 0 then r + 1 else r) (CipherCore.below (v.length - 1) i) := by
  rw [h.decMix_eq k hi hlen hr]
  constructor
  case toAt =>
    refine ⟨rfl, ?_, ?_, rfl, rfl⟩
    · rw [h.lastIndex, CipherCore.lastIndex, CipherCore.lastIndex, CipherCore.length_decAt]
    · rw [h.roundCount, CipherCore.roundCount, CipherCore.roundCount, CipherCore.length_decAt]
  case y => rw [CipherCore.length_decAt, CipherCore.above_below (by omega), CipherCore.decAt, getD_set_self hi]
  case sum => rw [CipherCore.length_decAt]
  case e =>
    simp only [CipherCore.below, CipherCore.length_decAt]
    split
    · exact fun hne => absurd rfl hne
    · exact fun _ => rfl

end DecMix

/-- `m` mix evaluations from the beginning of an iteration update its last `m` positions. -/
theorem Work.DecAt.mixTimes_range {w : Work} {v : Words} {n r m : Nat} (h : w.DecAt v r n) (k : Key)
    (hn : v.length = n + 1) (hm : m ≤ n) (hlen : v.length ≤ 2 ^ 32) (hr : r < CipherCore.rounds n) :
    (mixTimes .decrypt k m w).DecAt
      (CipherCore.decSweep k n (CipherCore.roundSum (CipherCore.rounds n - r)) (List.range' (n - m + 1) m) v)
      r (n - m) := by
  induction m with
  | zero => exact h
  | succ m ih =>
    have hnext := (ih (by omega)).decMix k (by rw [CipherCore.length_decSweep]; omega)
      (by rwa [CipherCore.length_decSweep]) (by rwa [CipherCore.length_decSweep, hn, Nat.add_sub_cancel])
    rw [CipherCore.length_decSweep, hn, Nat.add_sub_cancel, if_neg (by omega), CipherCore.below, if_neg (by omega),
      ← CipherCore.decSweep_cons, ← List.range'_succ] at hnext
    rw [mixTimes_succ, show n - (m + 1) + 1 = n - m by omega]
    exact hnext

/-- As many mix evaluations as there are positions make an iteration (R166). -/
theorem Work.DecAt.mixTimes_round {w : Work} {v : Words} {n r : Nat} (h : w.DecAt v r n) (k : Key)
    (hn : v.length = n + 1) (hlen : v.length ≤ 2 ^ 32) (hr : r < CipherCore.rounds n) :
    (mixTimes .decrypt k (n + 1) w).DecAt
      (CipherCore.decSweep k n (CipherCore.roundSum (CipherCore.rounds n - r)) (List.range (n + 1)) v) (r + 1) n := by
  have hlast := (h.mixTimes_range k hn le_rfl hlen hr).decMix k (by rw [CipherCore.length_decSweep]; omega)
    (by rwa [CipherCore.length_decSweep]) (by rwa [CipherCore.length_decSweep, hn, Nat.add_sub_cancel])
  rw [CipherCore.length_decSweep, hn, Nat.add_sub_cancel, Nat.sub_self, if_pos rfl, CipherCore.below, if_pos rfl,
    ← CipherCore.decSweep_cons, ← List.range'_succ, ← List.range_eq_range'] at hlast
  rw [mixTimes_succ]
  exact hlast

/-- After `r` iterations the rest of the pass is still to be made. -/
theorem CipherCore.decAt_mixTimes (k : Key) {v : Words} {n : Nat} (hn : v.length = n + 1) (hlen : v.length ≤ 2 ^ 32)
    {r : Nat} (hr : r ≤ CipherCore.rounds n) :
    ∃ u, u.length = v.length ∧ (mixTimes .decrypt k (r * (n + 1)) (CipherCore.decStart v)).DecAt u r n ∧
      CipherCore.decPass k n (CipherCore.rounds n - r) u = CipherCore.decPass k n (CipherCore.rounds n) v := by
  induction r with
  | zero =>
    have hstart := CipherCore.decAt_decStart v
    rw [hn, Nat.add_sub_cancel] at hstart
    exact ⟨v, rfl, by rwa [Nat.zero_mul], rfl⟩
  | succ r ih =>
    obtain ⟨u, hu, hat, hrest⟩ := ih (by omega)
    have hround := hat.mixTimes_round k (hu.trans hn) (by rwa [hu]) (by omega)
    rw [← mixTimes_add, Nat.add_comm, ← Nat.succ_mul] at hround
    refine ⟨_, by rw [CipherCore.length_decSweep, hu], hround, ?_⟩
    have hsucc : CipherCore.rounds n - r = CipherCore.rounds n - (r + 1) + 1 := by omega
    rw [← hrest, hsucc, CipherCore.decPass]

/-- Settles O18: after `q` iterations nothing of the pass that `decWords` is remains. -/
theorem decryptWorkingStateComputesDecWords : Obligations.DecryptWorkingStateComputesDecWords := by
  intro v k hpos hlen
  obtain ⟨n, hn⟩ : ∃ n, v.length = n + 1 := ⟨v.length - 1, by omega⟩
  obtain ⟨u, hu, hend, hrest⟩ := CipherCore.decAt_mixTimes k hn hlen le_rfl
  have hlast : v.length - 1 = n := by rw [hn, Nat.add_sub_cancel]
  rw [Nat.sub_self, CipherCore.decPass] at hrest
  rw [CipherCore.decWords_eq_decPass k hpos, hlast, hn]
  exact ⟨hend.buffer.trans hrest, hend.toNat_round (by rw [hu, hlast])⟩

end Sys2Proof.Machine
end

section
/-! R70 to R73 and R33: a command word as the decoder, the bus and a step see it. -/

namespace Sys2Proof.Machine

/-! ### Encoding and decoding -/

/-- The command word put together again from its four bytes on the bus (R53). -/
theorem decodeBytes_encodeBytes (i : Instr) (rest : Bytes) : decodeBytes (encodeBytes i ++ rest) = .ok (i, rest) := by
  cases i with
  | encrypt => rfl
  | decrypt => rfl

theorem decodeTableWord_encode (i : Instr) : decodeTableWord 32 (encode i).toNat = some i := by
  have hword : tableWord 32 (encode i).toNat = encode i := by
    rw [tableWord, Nat.mod_eq_of_lt (encode i).isLt, BitVec.ofNat_toNat, BitVec.setWidth_eq]
  rw [decodeTableWord, hword, decodeCommand_encode]

theorem decodeCommand_of_decodeTableWord {nbits w : Nat} {i : Instr} (h : decodeTableWord nbits w = some i) :
    decodeCommand (tableWord nbits w) = .ok i := by
  rw [decodeTableWord] at h
  split at h
  · next hok => rw [hok, Option.some.inj h]
  · cases h

/-- Settles O2. -/
theorem decodeOfEncode : Obligations.DecodeOfEncode := fun i rest =>
  ⟨decodeCommand_encode i, decodeBytes_encodeBytes i rest, decodeTableWord_encode i⟩

/-- Settles O3: the first two words are the encodings of the commands. -/
theorem writtenOutWordsDecode : Obligations.WrittenOutWordsDecode :=
  ⟨decodeCommand_encode .encrypt, decodeCommand_encode .decrypt, rfl, rfl, rfl, rfl⟩

/-! ### A command while BUSY or in reset -/

/-- Settles O38: acceptance checks BUSY and reset before anything else. -/
theorem commandTurnedAway : Obligations.CommandTurnedAway := by
  intro s i h
  have ignored (accept : State → State) : s.acceptWith accept = s := by
    obtain ⟨hbusy, hreset, -⟩ | ⟨-, hsame⟩ := s.acceptWith_cases accept
    · simp [hbusy, hreset] at h
    · exact hsame
  cases i with
  | encrypt => exact congrArg _ (ignored acceptEncrypt)
  | decrypt => exact congrArg _ (ignored acceptDecrypt)

/-- R35 and R240: whatever is written while BUSY or in reset, nothing changes. -/
theorem writeReg_of_turnedAway {s : State} (h : s.busy = true ∨ s.inReset = true) (r : Reg) (w : Word) :
    writeReg r w s = .next s := by
  unfold writeReg
  exact if_pos (by simpa using h)

theorem State.turnedAway_or_idle (s : State) : (s.busy = true ∨ s.inReset = true) ∨ s.idle := by
  by_cases h : s.busy = true ∨ s.inReset = true
  · exact .inl h
  · exact .inr (by simpa [State.idle] using h)

/-- A command word written to CMD is `exec` of its command, taken or turned away (R23, R33). -/
theorem busWrite_cmd_eq_exec {c : Word} {i : Instr} (hc : decodeCommand c = .ok i) (s : State) :
    busWrite 0x000 c s = exec i s := by
  obtain h | h := s.turnedAway_or_idle
  · rw [busWrite_of_reg (r := .cmd) rfl, writeReg_of_turnedAway h, commandTurnedAway s i h]
  · obtain rfl := decodeCommand_eq_ok_iff.1 hc
    exact busWrite_encode_of_idle h i

/-! ### The turn that is due -/

theorem hostTurn_of_program_cons {s : State} {op : HostOp} {ops : List HostOp} (h : s.program = op :: ops) :
    hostTurn s = runHostOp op { s with program := ops } := by rw [hostTurn, h]

theorem step_of_turns_cons {s : State} {u : Turn} {us : List Turn} (h : s.turns = u :: us) :
    step s = takeTurn u { s with turns := us } := by rw [step, nextTurn, h]

theorem step_of_turns_nil {s : State} (h : s.turns = []) : step s = takeTurn s.defaultTurn s := by
  rw [step, nextTurn, h]

/-- Settles O4. -/
theorem stepRunsTheDecodedCommand : Obligations.StepRunsTheDecodedCommand := by
  intro s c i ops hprogram hc
  refine ⟨fun ts hturns => ?_, fun hturns hbusy => ?_⟩
  · rw [step_of_turns_cons hturns]
    exact (hostTurn_of_program_cons (s := { s with turns := ts }) hprogram).trans (busWrite_cmd_eq_exec hc _)
  · have hhost : s.defaultTurn = .host := by rw [State.defaultTurn, hbusy]; rfl
    rw [step_of_turns_nil hturns, hhost]
    exact (hostTurn_of_program_cons hprogram).trans (busWrite_cmd_eq_exec hc _)

/-- Settles O5: placing a word puts one host turn and one write of CMD before what was there, and O4 uses both up. -/
theorem placedWordRunsNext : Obligations.PlacedWordRunsNext := by
  intro s nbits w i h
  have hc := decodeCommand_of_decodeTableWord h
  exact (stepRunsTheDecodedCommand (s.withFetchWord nbits w) (tableWord nbits w) i s.program rfl hc).1 s.turns rfl

end Sys2Proof.Machine
end

section
/-! R22 to R30, R35, R54 and R75: the register block under host accesses. -/

namespace Sys2Proof.Machine

/-! ### The register map and STATUS -/

theorem decodeOffset_reserved {c : Params} {o : Nat} (hlow : 0x024 ≤ o) (hhigh : o ≤ 0x0FF) (ho : o % 4 = 0) :
    decodeOffset c o = .reg .reserved := by
  rw [decodeOffset, if_pos (by omega)]
  iterate 10 rw [if_neg (by omega)]

theorem decodeOffset_outside {c : Params} {o : Nat} (h : 0x100 + 4 * c.maxWords ≤ o) :
    decodeOffset c o = .outside := by
  rw [decodeOffset, if_neg (by omega), if_pos (by omega)]

theorem decodeOffset_misaligned {c : Params} {o : Nat} (h : o < 0x100 + 4 * c.maxWords) (ho : o % 4 ≠ 0) :
    decodeOffset c o = .misaligned := by
  by_cases hreg : o < 0x100
  · rw [decodeOffset, if_pos hreg, if_pos ho]
  · rw [decodeOffset, if_neg hreg, if_neg (by omega), if_pos ho]

/-- Settles O25, range by range. -/
theorem registerMap : Obligations.RegisterMap := fun c =>
  ⟨rfl, rfl, rfl, rfl, decodeOffset_key c, rfl, fun _ => decodeOffset_reserved, fun _ => decodeOffset_data,
    fun _ => decodeOffset_outside⟩

/-- Settles O26: STATUS has sixteen values. -/
theorem statusLayout : Obligations.StatusLayout := by
  intro busy done err
  cases err with
  | none | malformed | illegalCmd | capacity => revert busy done; decide

/-! ### Accesses while a command runs -/

theorem busWrite_of_turnedAway {s : State} (h : s.busy = true ∨ s.inReset = true) {offset : Nat}
    (ho : offsetWellFormed s.params offset = true) (w : Word) : busWrite offset w s = .next s := by
  obtain ⟨r, hr⟩ := decodeOffset_of_wellFormed ho
  rw [busWrite_of_reg hr, writeReg_of_turnedAway h]

/-- Settles O28. -/
theorem writesWhileBusyAreIgnored : Obligations.WritesWhileBusyAreIgnored := fun _ _ w hbusy ho =>
  busWrite_of_turnedAway (.inl hbusy) ho w

section Busy
variable {s : State} (hbusy : s.busy = true) (hreset : s.inReset = false)
include hbusy hreset

/-- A read of DATA while BUSY returns the next draw and uses it up (R35, U4). -/
theorem busRead_data_of_busy {o i : Nat} (ho : decodeOffset s.params o = .reg (.data i)) :
    busRead o (fun _ t => t) s =
      .next { s with busyReads := s.busyReads + 1, reads := Config.freeBusyWord s.busyReads :: s.reads } := by
  have hvalue : s.readValue (.data i) = Config.freeBusyWord s.busyReads := by
    rw [State.readValue, hreset, State.regValue, hbusy]; rfl
  have hafter : s.afterRead (.data i) = { s with busyReads := s.busyReads + 1 } := by
    rw [State.afterRead, State.drawsOnRead, hbusy, hreset]; rfl
  rw [busRead_of_reg ho, hvalue, hafter]
  rfl

end Busy

/-- A read of any register but DATA changes nothing but the host's note of the value (R55). -/
theorem busRead_of_ne_data {s : State} {o : Nat} {r : Reg} (ho : decodeOffset s.params o = .reg r)
    (hr : ∀ i, r ≠ .data i) : busRead o (fun _ t => t) s = .next (s.noteRead (s.readValue r)) := by
  have hafter : s.afterRead r = s := by
    cases r with
    | data i => exact absurd rfl (hr i)
    | cmd | status | len | outlen | key j | capacity | reserved => rfl
  rw [busRead_of_reg ho, hafter]

/-- Settles O29: DATA returns draws; of the rest only OUTLEN reads otherwise than while idle. -/
theorem readsWhileBusy : Obligations.ReadsWhileBusy := by
  intro s hbusy hreset
  refine ⟨fun o r ho hr => ?_, fun i hi => busRead_data_of_busy hbusy hreset (decodeOffset_data hi)⟩
  have hvalue : s.readValue r = s.regValue r := by rw [State.readValue, hreset]; rfl
  rw [busRead_of_ne_data ho hr, hvalue]
  cases r with
  | outlen => rw [State.regValue, if_pos hbusy]; rfl
  | data i => exact absurd rfl (hr i)
  | cmd | status | len | key j | capacity | reserved => rfl

/-! ### Raw accesses -/

theorem writeReg_completes (r : Reg) (w : Word) (s : State) : Completes (writeReg r w s) := by
  obtain h | ⟨-, -, ⟨-, h⟩ | ⟨-, h⟩ | ⟨_, -, h⟩ | ⟨_, -, h⟩⟩ := writeReg_cases r w s
  · exact ⟨_, h⟩
  · obtain hc | hc | hc := writeCommand_cases w s <;> exact ⟨_, h.trans hc⟩
  · exact ⟨_, h⟩
  · exact ⟨_, h⟩
  · exact ⟨_, h⟩

theorem busWrite_completes {s : State} {offset : Nat} (ho : offsetWellFormed s.params offset = true) (w : Word) :
    Completes (busWrite offset w s) := by
  obtain ⟨r, hr⟩ := decodeOffset_of_wellFormed ho
  rw [busWrite_of_reg hr]
  exact writeReg_completes r w s

theorem busRead_completes {s : State} {offset : Nat} (ho : offsetWellFormed s.params offset = true)
    (use : Word → State → State) : Completes (busRead offset use s) := by
  obtain ⟨r, hr⟩ := decodeOffset_of_wellFormed ho
  exact ⟨_, busRead_of_reg hr use⟩

section Inside
variable {s : State} {a : Access} (hbase : s.params.base ≤ a.addr)
  (hend : a.addr < s.params.base + (0x100 + 4 * s.params.maxWords)) (hbits : a.bits = 32)
include hbase hend hbits

/-- A write access inside the block with the right width is the write of its offset from BASE (R53). -/
theorem busAccess_of_some {w : Word} (hvalue : a.value = some w) :
    busAccess a s = busWrite (a.addr - s.params.base) w s := by
  rw [busAccess, if_neg (by omega), if_neg (by omega), if_neg (by omega), hvalue]

/-- A read access inside the block with the right width is the read of its offset from BASE (R53). -/
theorem busAccess_of_none (hvalue : a.value = none) :
    busAccess a s = busRead (a.addr - s.params.base) (fun _ t => t) s := by
  rw [busAccess, if_neg (by omega), if_neg (by omega), if_neg (by omega), hvalue]

end Inside

/-- What R54 asks of an access. -/
theorem Access.wellFormed_iff {c : Params} {a : Access} :
    a.wellFormed c = true ↔ a.bits = 32 ∧ c.base ≤ a.addr ∧ offsetWellFormed c (a.addr - c.base) = true := by
  simp only [Access.wellFormed, Bool.and_eq_true, decide_eq_true_eq, and_assoc]

theorem busAccess_of_wellFormed {s : State} {a : Access} (h : a.wellFormed s.params = true) :
    Completes (busAccess a s) ∧ (∀ w, a.value = some w → busAccess a s = busWrite (a.addr - s.params.base) w s) ∧
      (a.value = none → busAccess a s = busRead (a.addr - s.params.base) (fun _ t => t) s) := by
  obtain ⟨hbits, hbase, ho⟩ := Access.wellFormed_iff.1 h
  have hend : a.addr < s.params.base + (0x100 + 4 * s.params.maxWords) := by
    simp only [offsetWellFormed, Bool.and_eq_true, decide_eq_true_eq] at ho
    omega
  refine ⟨?_, fun w => busAccess_of_some hbase hend hbits, busAccess_of_none hbase hend hbits⟩
  cases hvalue : a.value with
  | some w =>
    rw [busAccess_of_some hbase hend hbits hvalue]
    exact busWrite_completes ho w
  | none =>
    rw [busAccess_of_none hbase hend hbits hvalue]
    exact busRead_completes ho _

/-- Settles O30. BASE is a multiple of 4, so an address is aligned exactly when its offset is. -/
theorem busErrors : Obligations.BusErrors := by
  intro s a hparams
  refine ⟨busAccess_of_wellFormed, fun hbase hend hbad => ?_, fun houtside => ?_⟩
  · by_cases hbits : a.bits = 32
    · have haligned : s.params.base % 4 = 0 := by
        simp only [Params.wellFormed, Bool.and_eq_true, decide_eq_true_eq] at hparams
        exact hparams.2
      have ho : decodeOffset s.params (a.addr - s.params.base) = .misaligned :=
        decodeOffset_misaligned (by omega) (by omega)
      refine ⟨.busMisaligned, ?_⟩
      cases hvalue : a.value with
      | some w => rw [busAccess_of_some hbase hend hbits hvalue, busWrite, ho]
      | none => rw [busAccess_of_none hbase hend hbits hvalue, busRead, ho]
    · exact ⟨.busWidth, by rw [busAccess, if_neg (by omega), if_neg (by omega), if_pos hbits]⟩
  · by_cases hbase : a.addr < s.params.base
    · rw [busAccess, if_pos hbase]
    · rw [busAccess, if_neg hbase, if_pos (by omega)]

/-! ### Polls and RESULT -/

/-- The bus transaction of `R` (R75, R77). -/
theorem runHostOp_read (offset : Nat) (s : State) :
    runHostOp (.read offset) s = busRead offset (fun _ t => t) s := rfl

/-- The bus transaction of `P`, which issues itself again while the value does not match (R75, R77). -/
theorem runHostOp_poll (offset : Nat) (mask w : Word) (s : State) :
    runHostOp (.poll offset mask w) s =
      busRead offset (fun x t => if x &&& mask = w then t else t.issueFirst [.poll offset mask w]) s := rfl

/-- The bus transaction of `RESULT`, which issues the reads of DATA (R76). -/
theorem runHostOp_result (s : State) :
    runHostOp .result s = busRead (Reg.offset .outlen) (fun m t => t.issueFirst (resultReads m)) s := rfl

/-- Settles O31: one bus read, and the poll stands first again unless the value matches. -/
theorem pollReadsUntilItMatches : Obligations.PollReadsUntilItMatches := by
  intro s o r mask w ops hprogram ho
  have hturn := hostTurn_of_program_cons hprogram
  have hvalue : ({ s with program := ops } : State).readValue r = s.readValue r := rfl
  rw [runHostOp_poll, busRead_of_reg (s := { s with program := ops }) ho, hvalue] at hturn
  refine ⟨_, hturn, ?_⟩
  by_cases hmatch : s.readValue r &&& mask = w
  · rw [if_pos hmatch, if_pos hmatch]
    exact ⟨rfl, rfl, rfl⟩
  · rw [if_neg hmatch, if_neg hmatch]
    exact ⟨rfl, rfl, rfl⟩

/-- What OUTLEN reads, idle, BUSY and in reset (R35, R36, R240). -/
theorem State.readValue_outlen (s : State) :
    s.readValue .outlen = if s.busy || s.inReset then 0#32 else s.outlen := by
  unfold State.readValue State.regValue State.regValueInReset
  cases s.busy <;> cases s.inReset <;> rfl

/-- Settles O32: `RESULT` is a read of OUTLEN that issues the reads of DATA. -/
theorem resultReadsOutlenThenData : Obligations.ResultReadsOutlenThenData := by
  intro s ops hprogram m
  have hturn := hostTurn_of_program_cons hprogram
  have hvalue : ({ s with program := ops } : State).readValue .outlen = m := State.readValue_outlen _
  rw [runHostOp_result, busRead_of_reg (r := .outlen) rfl, hvalue] at hturn
  exact ⟨_, hturn, rfl, rfl, rfl⟩

end Sys2Proof.Machine
end

section
/-! R33, R34, R104, R145, R163 and R165: a command from its acceptance on an idle CORE to its published result. -/

namespace Sys2Proof.Machine

/-! ### Acceptance -/

theorem State.sameInputs_startCommand (s : State) (cmd : Instr) (work : Work) :
    s.sameInputs (s.clearResult.startCommand cmd work) := ⟨rfl, rfl, rfl, rfl, rfl, rfl, rfl, rfl⟩

/-- What every end of an acceptance has in common: the inputs and DATA are kept and OUTLEN is cleared (R33). -/
def State.acceptedAs (s t : State) : Prop :=
  s.sameInputs t ∧ t.data = s.data ∧ t.dataEpoch = s.dataEpoch ∧ t.outlen = 0#32

theorem State.acceptedAs_finishNow (s : State) (code : ErrCode) : s.acceptedAs (s.finishNow code) :=
  ⟨s.sameInputs_finishNow code, rfl, rfl, rfl⟩

theorem State.acceptedAs_startCommand (s : State) (cmd : Instr) (work : Work) :
    s.acceptedAs (s.clearResult.startCommand cmd work) := ⟨s.sameInputs_startCommand cmd work, rfl, rfl, rfl⟩

theorem State.acceptedAs_acceptEncrypt (s : State) : s.acceptedAs (acceptEncrypt s.clearResult) := by
  obtain ⟨-, ht⟩ | ⟨-, ht⟩ | ⟨-, -, ht⟩ := acceptEncrypt_cases s.clearResult <;> rw [ht]
  · exact s.acceptedAs_finishNow .capacity
  · exact s.acceptedAs_finishNow .none
  · exact s.acceptedAs_startCommand .encrypt _

theorem State.acceptedAs_acceptDecrypt (s : State) : s.acceptedAs (acceptDecrypt s.clearResult) := by
  obtain ⟨-, ht⟩ | ⟨-, ht⟩ | ⟨-, -, -, ht⟩ | ⟨-, -, ht⟩ := acceptDecrypt_cases s.clearResult <;> rw [ht]
  · exact s.acceptedAs_finishNow .capacity
  · exact s.acceptedAs_finishNow .none
  · exact s.acceptedAs_finishNow .malformed
  · exact s.acceptedAs_startCommand .decrypt _

/-- Settles O34: the three ends of ENCRYPT's accept step. -/
theorem encryptAcceptance : Obligations.EncryptAcceptance := by
  intro s h
  obtain ⟨hinputs, hdata, hepoch, houtlen⟩ := s.acceptedAs_acceptEncrypt
  refine ⟨_, exec_encrypt_of_idle h, hinputs, hdata, hepoch, houtlen, ?_⟩
  obtain ⟨hcap, ht⟩ | ⟨hempty, ht⟩ | ⟨hfits, hne, ht⟩ := acceptEncrypt_cases s.clearResult
  all_goals simp only [State.clearResult_len, State.clearResult_params] at *
  · rw [ht, if_pos hcap]
    exact ⟨by simp [statusOf_values], rfl⟩
  · rw [ht, if_neg (by simp [hempty]), if_pos hempty]
    exact ⟨by simp [statusOf_values], rfl⟩
  · rw [ht, if_neg hfits.not_gt, if_neg hne]
    exact ⟨by simp [statusOf_values], _, rfl, rfl, rfl⟩

/-- Settles O35: the four ends of DECRYPT's accept step. -/
theorem decryptAcceptance : Obligations.DecryptAcceptance := by
  intro s h
  obtain ⟨hinputs, hdata, hepoch, houtlen⟩ := s.acceptedAs_acceptDecrypt
  refine ⟨_, exec_decrypt_of_idle h, hinputs, hdata, hepoch, houtlen, ?_⟩
  obtain ⟨hcap, ht⟩ | ⟨hempty, ht⟩ | ⟨hfits, hne, hshort, ht⟩ | ⟨hfour, hfits, ht⟩ :=
    acceptDecrypt_cases s.clearResult
  all_goals simp only [State.clearResult_len, State.clearResult_params] at *
  · rw [ht, if_pos hcap]
    exact ⟨by simp [statusOf_values], rfl⟩
  · rw [ht, if_neg (by simp [hempty]), if_pos hempty]
    exact ⟨by simp [statusOf_values], rfl⟩
  · rw [ht, if_neg hfits.not_gt, if_neg hne, if_pos (Nat.le_of_lt_succ hshort)]
    exact ⟨by simp [statusOf_values], rfl⟩
  · have hne : s.len ≠ 0#32 := by intro hempty; simp [hempty] at hfour
    rw [ht, if_neg hfits.not_gt, if_neg hne, if_neg (by omega)]
    exact ⟨by simp [statusOf_values], _, rfl, rfl, rfl⟩

/-- ENCRYPT with an input that fits is started (R145). -/
theorem exec_encrypt_of_fits {s : State} (h : s.idle) (hpos : 1 ≤ s.len.toNat)
    (hcap : s.len.toNat ≤ 4 * (s.params.maxWords - 1)) :
    exec .encrypt s =
      .next (s.clearResult.startCommand .encrypt (CipherCore.encStart (s.encryptWords s.len))) := by
  have hne : s.len ≠ 0#32 := by intro hempty; simp [hempty] at hpos
  rw [exec_encrypt_of_idle h]
  exact congrArg _ ((if_neg hcap.not_gt).trans (if_neg hne))

/-- DECRYPT with an input that fits and has a word is started (R163). -/
theorem exec_decrypt_of_fits {s : State} (h : s.idle) (hfour : 4 ≤ s.len.toNat)
    (hcap : s.len.toNat ≤ 4 * s.params.maxWords) :
    exec .decrypt s =
      .next (s.clearResult.startCommand .decrypt (CipherCore.decStart (s.decryptWords s.len))) := by
  have hne : s.len ≠ 0#32 := by intro hempty; simp [hempty] at hfour
  rw [exec_decrypt_of_idle h]
  exact congrArg _ ((if_neg hcap.not_gt).trans ((if_neg hne).trans (if_neg hfour.not_gt)))

/-! ### Completion -/

section Running
variable {s : State} {p : Pending} (hbusy : s.busy = true) (hp : s.pending = some p)
include hbusy hp

theorem coreTurn_of_pending : coreTurn s = completePending p s := by rw [coreTurn, if_pos hbusy, hp]

theorem coreTurn_encrypt (hcmd : p.cmd = .encrypt) :
    coreTurn s = .next (s.publish (CipherCore.encrypt (s.memRead 0 p.len.toNat) s.key)) := by
  rw [coreTurn_of_pending hbusy hp, completePending, hcmd]
  rfl

theorem coreTurn_decrypt_of_ok (hcmd : p.cmd = .decrypt) {b : Bytes}
    (hok : CipherCore.decrypt (s.memRead 0 p.len.toNat) s.key = .ok b) : coreTurn s = .next (s.publish b) := by
  rw [coreTurn_of_pending hbusy hp]
  obtain ⟨hother, -⟩ | ⟨-, b', hok', ht⟩ | ⟨-, hbad, -⟩ := completePending_cases p s
  · cases hcmd.symm.trans hother
  · cases hok.symm.trans hok'
    exact ht
  · cases hok.symm.trans hbad

theorem coreTurn_decrypt_of_error (hcmd : p.cmd = .decrypt) {e : CodecError}
    (hbad : CipherCore.decrypt (s.memRead 0 p.len.toNat) s.key = .error e) : coreTurn s = .next s.publishMalformed := by
  rw [coreTurn_of_pending hbusy hp]
  obtain ⟨hother, -⟩ | ⟨-, b', hok', -⟩ | ⟨-, -, ht⟩ := completePending_cases p s
  · cases hcmd.symm.trans hother
  · cases hbad.symm.trans hok'
  · exact ht

end Running

theorem State.sameInputs_publish (s : State) (b : Bytes) : s.sameInputs (s.publish b) :=
  ⟨rfl, rfl, rfl, rfl, rfl, rfl, rfl, rfl⟩

theorem State.sameInputs_publishMalformed (s : State) : s.sameInputs s.publishMalformed :=
  ⟨rfl, rfl, rfl, rfl, rfl, rfl, rfl, rfl⟩

theorem State.sameInputs.trans {s t u : State} (h : s.sameInputs t) (h' : t.sameInputs u) : s.sameInputs u := by
  obtain ⟨h1, h2, h3, h4, h5, h6, h7, h8⟩ := h
  obtain ⟨h1', h2', h3', h4', h5', h6', h7', h8'⟩ := h'
  exact ⟨h1'.trans h1, h2'.trans h2, h3'.trans h3, h4'.trans h4, h5'.trans h5, h6'.trans h6, h7'.trans h7, h8'.trans h8⟩

/-- OUTLEN holds a length that 32 bits can hold (R26, R34). -/
theorem State.toNat_lengthWord (s : State) {n : Nat} (hn : n < 2 ^ 32) : (s.lengthWord n).toNat = n := by
  rw [State.lengthWord, if_pos hn, BitVec.toNat_ofNat, Nat.mod_eq_of_lt hn]

theorem State.byteAt_publish_past (s : State) {b : Bytes} {a : Nat} (ha : b.length ≤ a) :
    (s.publish b).byteAt a = Config.freeDataByte (s.dataEpoch + 1) a := by
  rw [State.byteAt_publish, if_neg ha.not_gt]

theorem CipherCore.length_le_of_decrypt {ct b : Bytes} {k : Key} (hok : CipherCore.decrypt ct k = .ok b) :
    b.length ≤ ct.length := by
  by_cases hpos : 1 ≤ ct.length
  · have := CipherCore.length_of_decrypt hpos hok
    omega
  · rw [CipherCore.decrypt, if_pos (by omega)] at hok
    cases hok
    exact Nat.zero_le _

/-- R146 as a bound, for the empty plaintext too. -/
theorem CipherCore.length_encrypt_le (pt : Bytes) (k : Key) :
    (CipherCore.encrypt pt k).length ≤ 4 * ((pt.length + 3) / 4 + 1) := by
  by_cases hpos : 1 ≤ pt.length
  · exact (CipherCore.length_encrypt hpos k).le
  · rw [CipherCore.encrypt, if_pos (by omega)]
    exact Nat.zero_le _

/-- A plaintext that DECRYPT publishes is never longer than a `u32` can say. -/
theorem State.length_lt_of_decrypt {s : State} {len : Word} {k : Key} {b : Bytes}
    (hok : CipherCore.decrypt (s.memRead 0 len.toNat) k = .ok b) : b.length < 2 ^ 32 := by
  have hle := CipherCore.length_le_of_decrypt hok
  rw [State.length_memRead] at hle
  exact hle.trans_lt len.isLt

/-- Settles O39. -/
theorem encryptCompletion : Obligations.EncryptCompletion := by
  intro s p hbusy hp hcmd
  exact ⟨_, coreTurn_encrypt hbusy hp hcmd, s.sameInputs_publish _, by simp [statusOf_values], rfl,
    s.memRead_publish _, fun hlen => s.toNat_lengthWord hlen, fun _ => s.byteAt_publish_past⟩

/-- Settles O40, by the answer of `decrypt`. -/
theorem decryptCompletion : Obligations.DecryptCompletion := by
  intro s p hbusy hp hcmd
  cases hd : CipherCore.decrypt (s.memRead 0 p.len.toNat) s.key with
  | ok b =>
    exact ⟨_, coreTurn_decrypt_of_ok hbusy hp hcmd hd, s.sameInputs_publish _, rfl, by simp [statusOf_values],
      s.toNat_lengthWord (State.length_lt_of_decrypt hd), s.memRead_publish _, fun _ => s.byteAt_publish_past⟩
  | error e =>
    exact ⟨_, coreTurn_decrypt_of_error hbusy hp hcmd hd, s.sameInputs_publishMalformed, rfl,
      by simp [statusOf_values], rfl, fun _ => rfl⟩

/-! ### From acceptance to result -/

/-- The DATA words of published words (R34, R105). -/
theorem State.dataWord_publish_unpack (s : State) {ws : Words} {i : Nat} (hi : i < ws.length) :
    (s.publish (WordCodec.unpack ws)).dataWord i = ws.getD i 0#32 := by
  refine WordCodec.eq_of_byteOf_eq fun j hj => ?_
  rw [State.byteOf_dataWord _ i hj, State.byteAt_publish, if_pos (by rw [WordCodec.length_unpack]; omega),
    WordCodec.getD_unpack _ _ hj]

/-- The completion of ENCRYPT just accepted: the bytes in DATA are those at acceptance (R34, R145). -/
theorem coreTurn_startCommand_encrypt (s : State) (work : Work) :
    coreTurn (s.clearResult.startCommand .encrypt work) =
      .next ((s.clearResult.startCommand .encrypt work).publish
        (CipherCore.encrypt (s.memRead 0 s.len.toNat) s.key)) :=
  coreTurn_encrypt (p := ⟨.encrypt, s.len, work⟩) rfl rfl rfl

/-- Settles O41: the command is started, and its completion publishes the ciphertext of the bytes it was given. -/
theorem encryptCommand : Obligations.EncryptCommand := by
  intro s h hpos hcap
  have hinput : (s.memRead 0 s.len.toNat).length = s.len.toNat := s.length_memRead 0 _
  have hlen := CipherCore.length_encrypt (pt := s.memRead 0 s.len.toNat) (by omega) s.key
  have hwords := WordCodec.length_decode_true (s.memRead 0 s.len.toNat)
  rw [hinput] at hlen hwords
  refine ⟨_, _, exec_encrypt_of_fits h hpos hcap, by simp [statusOf_values], coreTurn_startCommand_encrypt s _,
    by simp [statusOf_values], (s.sameInputs_startCommand _ _).trans (State.sameInputs_publish _ _), fun hout => ?_,
    fun i hi => ?_⟩
  · rw [← hlen] at hout ⊢
    exact State.toNat_lengthWord _ hout
  · rw [CipherCore.encrypt_of_nonempty (by omega)]
    exact State.dataWord_publish_unpack _ (by rw [CipherCore.length_encWords, hwords]; omega)

/-- Settles O42: `decrypt` answers bytes exactly when the last decrypted word is a sentinel in range. -/
theorem decryptCommand : Obligations.DecryptCommand := by
  intro s h hfour hcap
  let t := s.clearResult.startCommand .decrypt (CipherCore.decStart (s.decryptWords s.len))
  let p : Pending := ⟨.decrypt, s.len, CipherCore.decStart (s.decryptWords s.len)⟩
  have hexec : exec .decrypt s = .next t := exec_decrypt_of_fits h hfour hcap
  have hbusy : t.statusWord = 0x00000001#32 := by simp [t, statusOf_values]
  have hdecrypt := CipherCore.decrypt_of_four_le (ct := s.memRead 0 s.len.toNat) (by rwa [State.length_memRead]) s.key
  cases hd : CipherCore.decrypt (s.memRead 0 s.len.toNat) s.key with
  | ok b =>
    have hcore : coreTurn t = .next (t.publish b) := coreTurn_decrypt_of_ok (p := p) rfl rfl rfl hd
    have hlength : (t.lengthWord b.length).toNat = b.length := t.toNat_lengthWord (State.length_lt_of_decrypt hd)
    refine ⟨t, _, hexec, hbusy, hcore, (s.sameInputs_startCommand _ _).trans (t.sameInputs_publish b),
      fun ws m hws => ?_⟩
    rw [hdecrypt, hws, WordCodec.encode_append_true_eq_ok_iff, WordCodec.sentinelInRange_succ] at hd
    obtain ⟨hrange, hb⟩ := hd
    have hm : b.length = m.toNat := by
      rw [← hb, List.length_take, WordCodec.length_unpack]
      omega
    rw [if_pos ⟨by omega, by omega⟩, hb]
    exact ⟨by simp [statusOf_values], BitVec.eq_of_toNat_eq (hlength.trans hm), hm ▸ t.memRead_publish b⟩
  | error e =>
    have hcore : coreTurn t = .next t.publishMalformed := coreTurn_decrypt_of_error (p := p) rfl rfl rfl hd
    refine ⟨t, _, hexec, hbusy, hcore, (s.sameInputs_startCommand _ _).trans t.sameInputs_publishMalformed,
      fun ws m hws => ?_⟩
    rw [hdecrypt, hws, WordCodec.encode_append_true] at hd
    have hrange : ¬ WordCodec.sentinelInRange (ws.length + 1) m = true := by
      intro hr
      rw [if_pos hr] at hd
      cases hd
    rw [WordCodec.sentinelInRange_succ] at hrange
    rw [if_neg (by omega)]
    exact ⟨by simp [statusOf_values], rfl⟩

/-- LEN stands at offset 0x008, and an idle CORE stores what is written there (R25, R36). -/
theorem busWrite_len_of_idle {s : State} (h : s.idle) (w : Word) : busWrite 0x008 w s = .next (s.writeLen w) :=
  (busWrite_of_reg (r := .len) rfl w).trans (writeReg_len_of_idle h w)

/-- Settles O43: once ENCRYPT has completed, DATA holds the ciphertext and OUTLEN its length, and `decrypt` gives the
input back from them. -/
theorem machineRoundTrip : Obligations.MachineRoundTrip := by
  intro s hparams h hpos hcap hout
  let pt := s.memRead 0 s.len.toNat
  let ct := CipherCore.encrypt pt s.key
  have hpt : pt.length = s.len.toNat := s.length_memRead 0 _
  have hct : ct.length = 4 * ((s.len.toNat + 3) / 4 + 1) := by
    rw [← hpt]
    exact CipherCore.length_encrypt (by omega) s.key
  let t1 := s.clearResult.startCommand .encrypt (CipherCore.encStart (s.encryptWords s.len))
  have h1 : exec .encrypt s = .next t1 := exec_encrypt_of_fits h hpos hcap
  let t2 := t1.publish ct
  have h2 : coreTurn t1 = .next t2 := coreTurn_startCommand_encrypt s _
  have houtlen : t2.outlen.toNat = ct.length := t1.toNat_lengthWord (by omega)
  have hidle : t2.idle := ⟨rfl, h.2⟩
  let t3 := t2.writeLen t2.outlen
  have h3 : busWrite 0x008 t2.outlen t2 = .next t3 := busWrite_len_of_idle hidle _
  let t4 := t3.clearResult.startCommand .decrypt (CipherCore.decStart (t3.decryptWords t3.len))
  have h4 : exec .decrypt t3 = .next t4 := by
    have hlen : t3.len.toNat = ct.length := houtlen
    have hmax : t3.params.maxWords = s.params.maxWords := rfl
    exact exec_decrypt_of_fits hidle (by omega) (by omega)
  have hread : t4.memRead 0 t2.outlen.toNat = ct := by
    rw [houtlen]
    exact t1.memRead_publish ct
  have hdecrypt : CipherCore.decrypt (t4.memRead 0 t2.outlen.toNat) t4.key = .ok pt := by
    rw [hread]
    exact CipherCore.decrypt_encrypt pt s.key (hpt ▸ s.len.isLt)
  have h5 : coreTurn t4 = .next (t4.publish pt) :=
    coreTurn_decrypt_of_ok (p := ⟨.decrypt, t2.outlen, _⟩) rfl rfl rfl hdecrypt
  have hlast : (t4.lengthWord pt.length).toNat = s.len.toNat := by
    rw [hpt]
    exact t4.toNat_lengthWord s.len.isLt
  have hrestored : (t4.publish pt).memRead 0 s.len.toNat = pt := by
    rw [← hpt]
    exact t4.memRead_publish pt
  exact ⟨t1, t2, t3, t4, _, h1, h2, h3, h4, h5, by simp [statusOf_values], BitVec.eq_of_toNat_eq hlast, hrestored,
    rfl, rfl⟩

/-! ### Bytes past LEN -/

/-- `MemRead` depends on the bytes it reads alone (R52, R104). -/
theorem State.memRead_eq_of_byteAt_eq {s t : State} {n : Nat} (h : ∀ a, a < n → t.byteAt a = s.byteAt a) :
    t.memRead 0 n = s.memRead 0 n := by
  refine List.map_congr_left fun a ha => ?_
  rw [Nat.zero_add]
  exact h a (List.mem_range.1 ha)

/-- Settles O44: completion applies `encrypt` or `decrypt` to bytes that both states have. -/
theorem bytesPastLengthDoNotMatter : Obligations.BytesPastLengthDoNotMatter := by
  intro s s' p p' hbusy hbusy' hp hp' hcmd hlen hkey hbytes
  have hinput : s'.memRead 0 p'.len.toNat = s.memRead 0 p.len.toNat := by
    rw [hlen]
    exact State.memRead_eq_of_byteAt_eq hbytes
  have published {b : Bytes} (hb : b.length < 2 ^ 32) : (s'.publish b).outlen = (s.publish b).outlen := by
    change s'.lengthWord b.length = s.lengthWord b.length
    rw [State.lengthWord, State.lengthWord, if_pos hb, if_pos hb]
  cases hc : p.cmd with
  | encrypt =>
    have ht' := coreTurn_encrypt hbusy' hp' (hcmd.trans hc)
    rw [hinput, hkey] at ht'
    refine ⟨_, _, coreTurn_encrypt hbusy hp hc, ht', by simp, rfl, fun hout => published ?_⟩
    obtain hdec | hfits := hout
    · cases hdec
    · have hle := CipherCore.length_encrypt_le (s.memRead 0 p.len.toNat) s.key
      rw [State.length_memRead] at hle
      exact hle.trans_lt hfits
  | decrypt =>
    cases hd : CipherCore.decrypt (s.memRead 0 p.len.toNat) s.key with
    | ok b =>
      have hd' : CipherCore.decrypt (s'.memRead 0 p'.len.toNat) s'.key = .ok b := by rw [hinput, hkey, hd]
      exact ⟨_, _, coreTurn_decrypt_of_ok hbusy hp hc hd, coreTurn_decrypt_of_ok hbusy' hp' (hcmd.trans hc) hd',
        by simp, rfl, fun _ => published (State.length_lt_of_decrypt hd)⟩
    | error e =>
      have hd' : CipherCore.decrypt (s'.memRead 0 p'.len.toNat) s'.key = .error e := by rw [hinput, hkey, hd]
      exact ⟨_, _, coreTurn_decrypt_of_error hbusy hp hc hd,
        coreTurn_decrypt_of_error hbusy' hp' (hcmd.trans hc) hd', by simp, rfl, fun _ => rfl⟩

end Sys2Proof.Machine
end

section
/-! R31, R32, R34 and R247: the turns of the core sequencer and the mix turn, and how a running command comes to its
end. -/

namespace Sys2Proof.Machine

/-! ### What the turns of the core keep -/

/-- A completion keeps LEN, the keys and the host's side (R34). -/
theorem State.sameInputs_of_completePending {p : Pending} {s t : State} (h : completePending p s = .next t) :
    s.sameInputs t := by
  obtain ⟨-, ht⟩ | ⟨-, b, -, ht⟩ | ⟨-, -, ht⟩ := completePending_cases p s <;> rw [ht] at h <;> cases h
  · exact s.sameInputs_publish _
  · exact s.sameInputs_publish b
  · exact s.sameInputs_publishMalformed

theorem State.sameInputs_refl (s : State) : s.sameInputs s := ⟨rfl, rfl, rfl, rfl, rfl, rfl, rfl, rfl⟩

/-- The core sequencer's turn always answers, and keeps LEN, the keys and the host's side (R34). -/
theorem coreTurn_completes (s : State) : ∃ t, coreTurn s = .next t ∧ s.sameInputs t := by
  obtain ⟨p, -, -, h⟩ | ⟨-, h⟩ := coreTurn_cases s
  · obtain ⟨t, ht, -⟩ := completePending_reports p s
    exact ⟨t, h.trans ht, State.sameInputs_of_completePending ht⟩
  · exact ⟨s, h, s.sameInputs_refl⟩

/-- A completion ends the command: BUSY gives way to DONE (R34). -/
theorem done_of_completePending {p : Pending} {s t : State} (h : completePending p s = .next t) :
    t.busy = false ∧ t.done = true := by
  obtain ⟨-, ht⟩ | ⟨-, b, -, ht⟩ | ⟨-, -, ht⟩ := completePending_cases p s <;> rw [ht] at h <;> cases h <;>
    exact ⟨rfl, rfl⟩

/-- A command, taken or turned away, keeps LEN, the keys and the host's side (R33). -/
theorem exec_completes (i : Instr) (s : State) : ∃ t, exec i s = .next t ∧ s.sameInputs t := by
  obtain h | h := s.turnedAway_or_idle
  · exact ⟨s, commandTurnedAway s i h, s.sameInputs_refl⟩
  · cases i with
    | encrypt =>
      obtain ⟨hinputs, -⟩ := s.acceptedAs_acceptEncrypt
      exact ⟨_, exec_encrypt_of_idle h, hinputs⟩
    | decrypt =>
      obtain ⟨hinputs, -⟩ := s.acceptedAs_acceptDecrypt
      exact ⟨_, exec_decrypt_of_idle h, hinputs⟩

/-- A mix turn changes the pending operation at most, and there is one after it exactly when there was one (R31). -/
theorem mixTurn_eq (s : State) :
    mixTurn s = { s with pending := (mixTurn s).pending } ∧ (mixTurn s).pending.isSome = s.pending.isSome := by
  obtain ⟨p, -, hp, h⟩ | ⟨-, h⟩ := mixTurn_cases s
  · rw [h, hp]
    exact ⟨rfl, rfl⟩
  · rw [h]
    exact ⟨rfl, rfl⟩

/-- Settles O54. -/
theorem commandsKeepLenAndKey : Obligations.CommandsKeepLenAndKey := by
  intro s
  refine ⟨fun i => ?_, ?_, mixTurn s, rfl, ?_⟩
  · obtain ⟨t, ht, -, hlen, hkey, -⟩ := exec_completes i s
    exact ⟨t, ht, hlen, hkey⟩
  · obtain ⟨t, ht, -, hlen, hkey, -⟩ := coreTurn_completes s
    exact ⟨t, ht, hlen, hkey⟩
  · rw [(mixTurn_eq s).1]
    exact ⟨rfl, rfl⟩

/-! ### The working state is not observed -/

/-- No register shows the pending operation (R31, R32). -/
theorem State.readValue_pending (s : State) (o : Option Pending) (r : Reg) :
    ({ s with pending := o } : State).readValue r = s.readValue r := rfl

/-- A completion does not look at the working state, and leaves nothing of it (R32, R34). -/
theorem completePending_work (p : Pending) (work : Work) (s : State) (o : Option Pending) :
    completePending { p with work := work } { s with pending := o } = completePending p s := by
  obtain ⟨cmd, len, _⟩ := p
  cases cmd with
  | encrypt => rfl
  | decrypt => rfl

theorem coreTurn_mixTurn (s : State) (hbusy : s.busy = true) (hpending : s.pending.isSome = true) :
    coreTurn (mixTurn s) = coreTurn s := by
  obtain ⟨p, -, hp, h⟩ | ⟨hidle, -⟩ := mixTurn_cases s
  · let q : Pending := { p with work := mixOnce p.cmd s.key p.work }
    have hmixed := coreTurn_of_pending (s := { s with pending := some q }) (p := q) hbusy rfl
    rw [h, coreTurn_of_pending hbusy hp]
    exact hmixed.trans (completePending_work p q.work s (some q))
  · obtain hidle | hidle := hidle
    · cases hbusy.symm.trans hidle
    · simp [hidle] at hpending

/-- Settles O45. -/
theorem workingStateIsInvisible : Obligations.WorkingStateIsInvisible := by
  intro s
  obtain ⟨hsame, hpending⟩ := mixTurn_eq s
  refine ⟨hsame, hpending, fun r => ?_, coreTurn_mixTurn s⟩
  rw [hsame, State.readValue_pending]

/-! ### A running command comes to its end -/

/-- The turns that are given play no part in a completion. -/
theorem coreTurn_turns {s u : State} (h : coreTurn s = .next u) (ts : List Turn) :
    coreTurn { s with turns := ts } = .next { u with turns := ts } := by
  obtain ⟨p, hbusy, hp, hc⟩ | ⟨hidle, hc⟩ := coreTurn_cases s
  · rw [hc] at h
    obtain ⟨hcmd, ht⟩ | ⟨hcmd, b, hok, ht⟩ | ⟨hcmd, hbad, ht⟩ := completePending_cases p s <;> rw [ht] at h <;> cases h
    · exact coreTurn_encrypt (s := { s with turns := ts }) hbusy hp hcmd
    · exact coreTurn_decrypt_of_ok (s := { s with turns := ts }) hbusy hp hcmd hok
    · exact coreTurn_decrypt_of_error (s := { s with turns := ts }) hbusy hp hcmd hbad
  · obtain rfl : s = u := Host.Outcome.next.inj (hc.symm.trans h)
    obtain hidle | hidle := hidle <;> simp [coreTurn, hidle]

/-- A step and then `n` more. -/
theorem run_succ {s t : State} (h : step s = .next t) (n : Nat) :
    Host.Core.run Sys2Proof.core (n + 1) s = Host.Core.run Sys2Proof.core n t := by
  have hcore : Sys2Proof.core.step s = .next t := h
  simp only [Host.Core.run, hcore]

/-- Within `k` steps the command that runs is over, and unless reset was asserted it is over by a completion, whose
result is that of a completion at once. -/
def State.EndsWithin (s : State) (k : Nat) : Prop :=
  ∃ n t, n ≤ k ∧ Host.Core.run Sys2Proof.core n s = .next t ∧ t.busy = false ∧
    (s.inReset = false → .assertReset ∉ s.turns →
      t.done = true ∧ ∃ u, coreTurn s = .next u ∧ t = { u with turns := t.turns })

/-- The core's turn comes, with the turns before it used up. -/
theorem State.endsWithin_of_coreTurn {s : State} (hbusy : s.busy = true) (hpending : s.pending.isSome = true) {k : Nat}
    (ts : List Turn) (hstep : step s = coreTurn { s with turns := ts }) : s.EndsWithin (k + 1) := by
  obtain ⟨p, hp⟩ := Option.isSome_iff_exists.1 hpending
  obtain ⟨u, hu, -⟩ := coreTurn_completes s
  obtain ⟨hover, hdone⟩ := done_of_completePending ((coreTurn_of_pending hbusy hp).symm.trans hu)
  have hnext : step s = .next { u with turns := ts } := hstep.trans (coreTurn_turns hu ts)
  exact ⟨1, _, Nat.le_add_left 1 k, run_succ hnext 0, hover, fun _ _ => ⟨hdone, u, hu, rfl⟩⟩

/-- An event of the reset input abandons the command (R241). -/
theorem State.endsWithin_of_reset {s t : State} {k : Nat} (hstep : step s = .next t) (hover : t.busy = false)
    (hreset : s.inReset = false → .assertReset ∈ s.turns) : s.EndsWithin (k + 1) :=
  ⟨1, t, Nat.le_add_left 1 k, run_succ hstep 0, hover, fun hout hturns => absurd (hreset hout) hturns⟩

/-- A step after which the same completion is still to come. -/
theorem State.EndsWithin.of_step {s t : State} {k : Nat} {x : Turn} (ht : t.EndsWithin k) (hstep : step s = .next t)
    (hturns : s.turns = x :: t.turns) (hreset : t.inReset = s.inReset)
    (hcore : coreTurn t = coreTurn { s with turns := t.turns }) : s.EndsWithin (k + 1) := by
  obtain ⟨n, v, hn, hrun, hover, hend⟩ := ht
  refine ⟨n + 1, v, Nat.succ_le_succ hn, (run_succ hstep n).trans hrun, hover, fun hout hnone => ?_⟩
  have hnone' : .assertReset ∉ t.turns := fun hmem => hnone (hturns ▸ List.mem_cons_of_mem x hmem)
  obtain ⟨hdone, w, hw, hv⟩ := hend (hreset.trans hout) hnone'
  obtain ⟨u, hu, -⟩ := coreTurn_completes s
  obtain rfl : w = { u with turns := t.turns } :=
    Host.Outcome.next.inj (hw.symm.trans (hcore.trans (coreTurn_turns hu t.turns)))
  exact ⟨hdone, u, hu, hv⟩

/-- The turns that are given are used up one by one: the core's completes the command, an event of the reset input
abandons it, and the others leave its completion as it is. -/
theorem State.endsWithin_turns {s : State} (hprogram : s.program = []) (hbusy : s.busy = true)
    (hpending : s.pending.isSome = true) : s.EndsWithin (s.turns.length + 1) := by
  induction hts : s.turns generalizing s with
  | nil =>
    have hdefault : s.defaultTurn = .core := if_pos hbusy
    refine State.endsWithin_of_coreTurn hbusy hpending [] ?_
    rw [step_of_turns_nil hts, hdefault, ← hts]
    rfl
  | cons x xs ih =>
    have hstep := step_of_turns_cons hts
    cases x with
    | core => exact State.endsWithin_of_coreTurn hbusy hpending xs hstep
    | host =>
      have hhost : hostTurn { s with turns := xs } = .next { s with turns := xs } := by rw [hostTurn, hprogram]
      exact (ih (s := { s with turns := xs }) hprogram hbusy hpending rfl).of_step (hstep.trans hhost) hts rfl rfl
    | mix =>
      obtain ⟨hsame, hsome⟩ := mixTurn_eq { s with turns := xs }
      have hrest : (mixTurn { s with turns := xs }).EndsWithin (xs.length + 1) := by
        refine ih ?_ ?_ (hsome.trans hpending) ?_ <;> rw [hsame]
        · exact hprogram
        · exact hbusy
      have hturns : (mixTurn { s with turns := xs }).turns = xs := by rw [hsame]
      have hreset : (mixTurn { s with turns := xs }).inReset = s.inReset := by rw [hsame]
      have hcore := coreTurn_mixTurn { s with turns := xs } hbusy hpending
      exact hrest.of_step hstep (by rw [hts, hturns]) hreset (by rw [hcore, hturns])
    | assertReset => exact State.endsWithin_of_reset hstep rfl fun _ => hts ▸ List.mem_cons_self
    | releaseReset =>
      by_cases hreset : s.inReset = true
      · refine State.endsWithin_of_reset (t := { ({ s with turns := xs } : State).clearAll with inReset := false }) ?_ rfl
          fun hout => ?_
        · exact hstep.trans (congrArg _ (if_pos hreset))
        · cases hout.symm.trans hreset
      · have hrelease : takeTurn .releaseReset { s with turns := xs } = .next { s with turns := xs } :=
          congrArg _ (if_neg hreset)
        exact (ih (s := { s with turns := xs }) hprogram hbusy hpending rfl).of_step (hstep.trans hrelease) hts rfl rfl

/-- Settles O46. -/
theorem completionIsReached : Obligations.CompletionIsReached := fun _ hprogram hbusy hpending =>
  State.endsWithin_turns hprogram hbusy hpending

end Sys2Proof.Machine
end

section
/-! R37, R240 to R242: the values after reset, and the two events of the reset input. -/

namespace Sys2Proof.Machine

/-- The key words after reset (R37). -/
theorem Key.word_zero (i : Nat) : ({ k0 := 0#32, k1 := 0#32, k2 := 0#32, k3 := 0#32 } : Key).word i = 0#32 := by
  match i with
  | 0 | 1 | 2 | _ + 3 => rfl

/-- CAPACITY reads MAX_WORDS at any time (R28, R35, R240). -/
theorem State.readValue_capacity (s : State) : s.readValue .capacity = BitVec.ofNat 32 s.params.maxWords := ite_self _

/-- STATUS after reset is 0 (R37). -/
theorem State.statusWord_clearAll (s : State) (r : Bool) : ({ s.clearAll with inReset := r } : State).statusWord = 0#32 :=
  statusOf_values.1

/-- While reset is asserted a read returns 0 but for CAPACITY, and uses up no draw (R240). -/
theorem busRead_of_inReset {s : State} (h : s.inReset = true) {o : Nat} {r : Reg}
    (ho : decodeOffset s.params o = .reg r) :
    busRead o (fun _ t => t) s =
      .next { s with reads := (if r = .capacity then BitVec.ofNat 32 s.params.maxWords else 0#32) :: s.reads } := by
  have hvalue : s.readValue r = if r = .capacity then BitVec.ofNat 32 s.params.maxWords else 0#32 := by
    rw [State.readValue, if_pos h]
    cases r <;> rfl
  have hafter : s.afterRead r = s := by
    have hdraw : s.drawsOnRead r = false := by cases r <;> simp [State.drawsOnRead, h]
    rw [State.afterRead, hdraw]
    rfl
  rw [busRead_of_reg ho, hvalue, hafter]
  rfl

/-- Settles O47. -/
theorem resetValues : Obligations.ResetValues :=
  ⟨statusOf_values.1, rfl, rfl, fun _ => Key.word_zero _, State.readValue_capacity _, rfl, fun _ => rfl, rfl, rfl, rfl⟩

/-- Settles O48: both events give the values of `clearAll`, and in between R240 turns every access away. -/
theorem resetEvent : Obligations.ResetEvent := by
  intro s
  refine ⟨s.assertReset, rfl, rfl, s.statusWord_clearAll true, rfl, rfl, fun _ => Key.word_zero _, rfl, fun _ => rfl, rfl,
    fun _ w ho => busWrite_of_turnedAway (.inr rfl) ho w, fun _ _ ho => busRead_of_inReset rfl ho, ?_⟩
  exact ⟨_, rfl, ⟨rfl, rfl⟩, State.statusWord_clearAll _ false, rfl, rfl, fun _ => Key.word_zero _, rfl, fun _ => rfl⟩

end Sys2Proof.Machine
end

section
/-! R9, R54 and R206: what a whole step answers, and what it never changes. -/

namespace Sys2Proof.Machine

/-! ### Only a host access stops the machine -/

/-- An operation whose every access R54 permits completes. -/
theorem runHostOp_completes {op : HostOp} {s : State} (h : op.wellFormed s.params = true) :
    Completes (runHostOp op s) := by
  cases op with
  | write offset w => exact busWrite_completes h w
  | read offset =>
    rw [runHostOp_read]
    exact busRead_completes h _
  | poll offset mask w =>
    rw [runHostOp_poll]
    exact busRead_completes h _
  | result =>
    rw [runHostOp_result]
    exact ⟨_, busRead_of_reg (r := .outlen) rfl _⟩
  | access a => exact (busAccess_of_wellFormed h).1

theorem hostTurn_completes {s : State}
    (h : ∀ op ops, s.program = op :: ops → op.wellFormed s.params = true) : Completes (hostTurn s) := by
  obtain ⟨-, hsame⟩ | ⟨op, ops, hprogram, hop⟩ := hostTurn_cases s
  · exact ⟨s, hsame⟩
  · rw [hop]
    exact runHostOp_completes (s := { s with program := ops }) (h op ops hprogram)

/-- Settles O52: the other turns answer whatever the state holds. -/
theorem onlyBusMisuseStops : Obligations.OnlyBusMisuseStops := by
  intro s h
  have core_completes (t : State) : Completes (coreTurn t) := by
    obtain ⟨u, hu, -⟩ := coreTurn_completes t
    exact ⟨u, hu⟩
  obtain ⟨-, -, hstep⟩ | ⟨-, -, hstep⟩ | ⟨x, xs, -, hstep⟩ := step_cases s <;> rw [hstep]
  · exact core_completes s
  · exact hostTurn_completes h
  · cases x with
    | host => exact hostTurn_completes (s := { s with turns := xs }) h
    | core => exact core_completes _
    | mix | assertReset | releaseReset => exact ⟨_, rfl⟩

/-! ### The parameters -/

/-- No step writes MAX_WORDS or BASE (R9). -/
theorem StepEffect.params_eq {s t : State} (h : StepEffect s t) : t.params = s.params := by
  have of_same {u : State} (hu : s.sameCore u) : u.params = s.params := by rw [hu]
  cases h with
  | unchanged _ hu => exact of_same hu
  | accepted accept which _ u hu =>
    obtain rfl | rfl | rfl := which
    · obtain ⟨⟨hparams, -⟩, -⟩ := u.acceptedAs_acceptEncrypt
      exact hparams.trans (of_same hu)
    · obtain ⟨⟨hparams, -⟩, -⟩ := u.acceptedAs_acceptDecrypt
      exact hparams.trans (of_same hu)
    · exact of_same (u := u) hu
  | completed p _ _ u hu _ ht =>
    obtain ⟨hparams, -⟩ := State.sameInputs_of_completePending ht
    exact hparams.trans (of_same hu)
  | lenWritten _ _ u hu | keyWritten _ _ _ u hu | dataWritten _ _ _ _ u hu | mixed _ _ _ u hu | resetAsserted u hu
  | resetReleased _ u hu => exact of_same (u := u) hu

/-- Settles O53. -/
theorem capacityIsConstant : Obligations.CapacityIsConstant := by
  intro s t hstep
  have hparams := (step_effect hstep).params_eq
  exact ⟨hparams, by rw [State.readValue_capacity, State.readValue_capacity, hparams]⟩

/-! ### A reported error -/

/-- Of the bus writes only one to CMD, which stands at offset 0, can change ERR (R22, R36). -/
theorem offset_eq_zero_of_busWrite_err {s t : State} {offset : Nat} {w : Word} (h : busWrite offset w s = .next t)
    (herr : t.err ≠ s.err) : offset = 0 := by
  obtain ⟨r, ho, hreg⟩ | ⟨-, hfault⟩ | ⟨-, hrefused⟩ := busWrite_cases offset w s
  · rw [hreg] at h
    obtain hr | ⟨-, -, ⟨rfl, -⟩ | ⟨-, hr⟩ | ⟨_, -, hr⟩ | ⟨_, -, hr⟩⟩ := writeReg_cases r w s
    · cases hr.symm.trans h
      exact absurd rfl herr
    · exact (decodeOffset_reg ho).2 rfl
    all_goals
      cases hr.symm.trans h
      exact absurd rfl herr
  · cases hfault.symm.trans h
  · cases hrefused.symm.trans h

/-- A bus read changes no register, so not ERR (R55). -/
theorem err_eq_of_busRead {s t : State} {offset : Nat} {use : Word → State → State}
    (huse : ∀ w u, (use w u).err = u.err) (h : busRead offset use s = .next t) : t.err = s.err := by
  obtain ⟨r, -, hread⟩ | ⟨-, hfault⟩ | ⟨-, hrefused⟩ := busRead_cases offset use s
  · cases hread.symm.trans h
    exact huse _ _
  · cases hfault.symm.trans h
  · cases hrefused.symm.trans h

/-- A raw access that changes ERR is a write to BASE, where CMD stands. -/
theorem access_to_cmd_of_busAccess_err {s t : State} {a : Access} (h : busAccess a s = .next t) (herr : t.err ≠ s.err) :
    a.addr = s.params.base ∧ a.value.isSome = true := by
  unfold busAccess at h
  split at h
  · cases h
  · split at h
    · cases h
    · split at h
      · cases h
      · split at h
        next w hvalue =>
          have hzero := offset_eq_zero_of_busWrite_err h herr
          exact ⟨by omega, by rw [hvalue]; rfl⟩
        next => exact absurd (err_eq_of_busRead (fun _ _ => rfl) h) herr

/-- A host turn that changes ERR is a write to CMD. -/
theorem cmdWrite_of_hostTurn_err {s t : State} (h : hostTurn s = .next t) (herr : t.err ≠ s.err) :
    (∃ c ops, s.program = .write 0x000 c :: ops) ∨
      (∃ a ops, s.program = .access a :: ops ∧ a.addr = s.params.base ∧ a.value.isSome = true) := by
  obtain ⟨-, hsame⟩ | ⟨op, ops, hprogram, hop⟩ := hostTurn_cases s
  · cases hsame.symm.trans h
    exact absurd rfl herr
  · rw [hop] at h
    cases op with
    | write offset w =>
      obtain rfl := offset_eq_zero_of_busWrite_err (s := { s with program := ops }) h herr
      exact .inl ⟨w, ops, hprogram⟩
    | read offset => exact absurd (err_eq_of_busRead (fun _ _ => rfl) h) herr
    | poll offset mask w =>
      rw [runHostOp_poll] at h
      refine absurd (err_eq_of_busRead (fun x u => ?_) h) herr
      split <;> rfl
    | result =>
      rw [runHostOp_result] at h
      refine absurd (err_eq_of_busRead (fun m u => ?_) h) herr
      rfl
    | access a =>
      obtain ⟨haddr, hvalue⟩ := access_to_cmd_of_busAccess_err (s := { s with program := ops }) h herr
      exact .inr ⟨a, ops, hprogram, haddr, hvalue⟩

/-- Settles O55. A reported error means that no command runs and that reset is not asserted, so the core sequencer, the
mix turn and a release of reset do nothing. -/
theorem errorStaysUntilNextCommand : Obligations.ErrorStaysUntilNextCommand := by
  intro s t hs hreported hstep herr
  obtain ⟨hbusy, hreset⟩ := hs.idle_of_err hreported
  obtain ⟨-, hrunning, -⟩ | ⟨-, -, hturn⟩ | ⟨x, xs, hx, hturn⟩ := step_cases s
  · cases hbusy.symm.trans hrunning
  · exact .inr (cmdWrite_of_hostTurn_err (hturn.symm.trans hstep) herr)
  · have htake := hturn.symm.trans hstep
    cases x with
    | assertReset => exact .inl ⟨xs, hx⟩
    | host => exact .inr (cmdWrite_of_hostTurn_err (s := { s with turns := xs }) htake herr)
    | core =>
      have hsame : coreTurn { s with turns := xs } = .next { s with turns := xs } := if_neg (by simp [hbusy])
      cases hsame.symm.trans htake
      exact absurd rfl herr
    | mix =>
      have hsame : mixTurn { s with turns := xs } = { s with turns := xs } := if_neg (by simp [hbusy])
      cases (congrArg Host.Outcome.next hsame).symm.trans htake
      exact absurd rfl herr
    | releaseReset =>
      have hsame : ({ s with turns := xs } : State).releaseReset = { s with turns := xs } := if_neg (by simp [hreset])
      cases (congrArg Host.Outcome.next hsame).symm.trans htake
      exact absurd rfl herr

end Sys2Proof.Machine
end
